-- ==== Sys2Proof/Word.lean ====
section
/-!
DEFINITION. The word types of the block (R6, R8) and the two closed enumerations its words are read into:
the operation class (R56) and the decode error (R64).
-/

namespace Sys2Proof

/-- R8: a byte is 8 bits, an unsigned value 0 to 255. -/
abbrev Byte := BitVec 8

/-- R6: the operation code, the declared length and `absoluteUniverse` are 16 bits unsigned. -/
abbrev Half := BitVec 16

/-- R55: a nibble of the SubUni byte. -/
abbrev Nibble := BitVec 4

/-- R59: the 2-bit command code of a request. -/
abbrev Cmd := BitVec 2

/-- R56, R57: the closed set of operation classes; `unknown` carries the whole 16-bit code. -/
inductive OpClass where
  | unknown (code : Half)
  | poll
  | pollReply
  | dmx
  | sync
  deriving DecidableEq, Repr

/-- R64, R101: the two ways an ArtDmx payload fails to decode. -/
inductive DecodeErr where
  | tooShort
  | lengthMismatch
  deriving DecidableEq, Repr

end Sys2Proof
end

