-- ==== Sys2Proof/Syntax.lean ====
section
/-!
DEFINITION. The instructions: one constructor per row of spec/opcode_table.json. The table has three layers:
the commands a request carries (format Command2), the header check (format Header10) and the operation
codes of a datagram (format OpCode16).
-/

namespace Sys2Proof

/-- The rows of spec/opcode_table.json. A buffer is memory and stands in the state, not in the instruction. -/
inductive Instr where
  /-- R89: command 0b00, classify one datagram and, for ArtDmx, decode its payload. -/
  | process
  /-- R67: command 0b01, classify one datagram. -/
  | classify
  /-- R74: command 0b10, decode one ArtDmx payload. -/
  | decodeArtdmx
  /-- R60: command 0b11, which spells no operation. -/
  | reservedCmd
  /-- R68: the header check, applied before the operation-code rows. -/
  | artnetId
  /-- R91: operation code 0x2000. -/
  | opPoll
  /-- R92: operation code 0x2100. -/
  | opPollReply
  /-- R95: operation code 0x5000. -/
  | opDmx
  /-- R93: operation code 0x5200. -/
  | opSync
  /-- R94: any other operation code, which the row carries whole (R57). -/
  | opUnknown (code : Half)
  deriving DecidableEq, Repr

end Sys2Proof
end

