-- ==== Sys2Proof/Decode.lean ====
section
/-!
DEFINITION. The decoder of the three layers of spec/opcode_table.json (R48 to R60), total on any bytes and
rejecting by name, and after it the encoder, written from the same tables.
-/

namespace Sys2Proof

/-- R56: ArtPoll. -/
def opPollCode : Half := 0x2000

/-- R56: ArtPollReply. -/
def opPollReplyCode : Half := 0x2100

/-- R56: ArtDmx. -/
def opDmxCode : Half := 0x5000

/-- R56: ArtSync. -/
def opSyncCode : Half := 0x5200

/-- R49: the characters `Art-Net` and a zero byte. The spec takes the ASCII values from general knowledge (D18; PRESUMED,
notes/assumptions/18.md: unsafe). -/
def artnetIdBytes : List Byte := [0x41, 0x72, 0x74, 0x2D, 0x4E, 0x65, 0x74, 0x00]

/-- R50: the first byte is the low one. -/
def le16 (lo hi : Byte) : Half := hi ++ lo

/-- R53: the first byte is the high one. -/
def be16 (hi lo : Byte) : Half := hi ++ lo

/-- R72: DEMUX, the map of R56 (all 16 bits are compared, R57). -/
def demux (opcode : Half) : OpClass :=
  if opcode = opPollCode then .poll
  else if opcode = opPollReplyCode then .pollReply
  else if opcode = opDmxCode then .dmx
  else if opcode = opSyncCode then .sync
  else .unknown opcode

/-- R59: the row a command code names. -/
def decodeCommand (cmd : Cmd) : Instr :=
  if cmd = 0 then .process
  else if cmd = 1 then .classify
  else if cmd = 2 then .decodeArtdmx
  else .reservedCmd

/-- The row an operation code names: the row of its class. -/
def decodeOpcode (opcode : Half) : Instr :=
  match demux opcode with
  | .poll => .opPoll
  | .pollReply => .opPollReply
  | .dmx => .opDmx
  | .sync => .opSync
  | .unknown code => .opUnknown code

/-- The formats of spec/opcode_table.json. -/
inductive RowFormat where
  | command2
  | header10
  | opCode16
  deriving DecidableEq, Repr

/-- How many bytes must be present for a row of the format: the 2-bit command in a byte of its own, the
10-byte header (R69 counts all ten, although the row fixes eight: DEDUCED, notes/assumptions/14.md, safe), the two
operation-code bytes. -/
def RowFormat.len : RowFormat → Nat
  | .command2 => 1
  | .header10 => 10
  | .opCode16 => 2

/-- Why bytes are no row of a format. -/
inductive Reject where
  /-- Fewer bytes than the format has. -/
  | truncated
  /-- R68: the first eight bytes are not the protocol identifier. -/
  | notIdentifier
  deriving DecidableEq, Repr

/-- The row of a format that bytes begin with, and the bytes left after the ones the row fixes. A command byte
holds the command in its bits 1:0; the table's mask makes its other bits no part of the row (DESIGN CHOICE,
notes/assumptions/8.md: safe). -/
def decode (f : RowFormat) (bs : List Byte) : Except Reject (Instr × List Byte) :=
  match f with
  | .command2 =>
    match bs with
    | c :: rest => .ok (decodeCommand (c.setWidth 2), rest)
    | [] => .error .truncated
  | .header10 =>
    if bs.length < RowFormat.header10.len then .error .truncated
    else if bs.take 8 = artnetIdBytes then .ok (.artnetId, bs.drop 8)
    else .error .notIdentifier
  | .opCode16 =>
    match bs with
    | lo :: hi :: rest => .ok (decodeOpcode (le16 lo hi), rest)
    | _ => .error .truncated

/-- The low `n` bytes of a number, the least significant first. -/
def wordBytes : Nat → Nat → List Byte
  | 0, _ => []
  | n + 1, w => BitVec.ofNat 8 w :: wordBytes n (w / 256)

/-- The format of a table row that has `nbits` bits. -/
def tableFormat (nbits : Nat) : RowFormat :=
  if nbits ≤ 8 then .command2 else if nbits ≤ 16 then .opCode16 else .header10

/-- The instruction the decoder reads from a word numbered as spec/opcode_table.json numbers it. -/
def decodeTableWord (nbits w : Nat) : Option Instr :=
  match decode (tableFormat nbits) (wordBytes (tableFormat nbits).len w) with
  | .ok (i, _) => some i
  | .error _ => none

/-- The format of an instruction's row. -/
def formatOf (i : Instr) : RowFormat :=
  match i with
  | .process | .classify | .decodeArtdmx | .reservedCmd => .command2
  | .artnetId => .header10
  | .opPoll | .opPollReply | .opDmx | .opSync | .opUnknown _ => .opCode16

/-- R50: the two wire bytes of an operation code, low byte first. -/
def opBytes (opcode : Half) : List Byte := [opcode.extractLsb' 0 8, opcode.extractLsb' 8 8]

/-- R53: the two wire bytes of a length, high byte first. -/
def lenBytes (n : Half) : List Byte := [n.extractLsb' 8 8, n.extractLsb' 0 8]

/-- The bytes a row fixes: the command code (R59), the identifier (R49), the operation code (R56). -/
def encode (i : Instr) : List Byte :=
  match i with
  | .process => [0b00]
  | .classify => [0b01]
  | .decodeArtdmx => [0b10]
  | .reservedCmd => [0b11]
  | .artnetId => artnetIdBytes
  | .opPoll => opBytes opPollCode
  | .opPollReply => opBytes opPollReplyCode
  | .opDmx => opBytes opDmxCode
  | .opSync => opBytes opSyncCode
  | .opUnknown code => opBytes code

end Sys2Proof
end

