-- ==== Sys2Proof/Config.lean ====
section
/-!
DEFINITION. The parameters the source leaves open (R7): an instance's two capacities. The fixed constants of R6
stand where a repair may reach them (Sys2Proof/Decode.lean and Sys2Proof/Machine/Operands.lean).
The spec leaves no VALUE of any result open, so this model has no free value.
-/

namespace Sys2Proof

/-- R7: the capacities of one instance, fixed for its life (R119). `none` is "no bound": the infinity
of 92_eei_decisions.md D4. -/
structure Params where
  /-- The largest length a PROCESS or CLASSIFY request may carry. -/
  maxDatagramLen : Option Nat
  /-- The largest length a DECODE_ARTDMX request may carry. -/
  maxPayloadLen : Option Nat
  deriving DecidableEq, Repr

/-- 92_eei_decisions.md D4: a model with unbounded byte lists sets both parameters to infinity. -/
def Params.unbounded : Params := { maxDatagramLen := none, maxPayloadLen := none }

end Sys2Proof
end

