-- ==== Sys2Proof/Machine/State.lean ====
section
/-!
DEFINITION. The state of the block. It keeps nothing from one datagram to the next (R13); what a model holds is the
state of its transactions: the requests (R18) and their responses (R20), and the instance's two parameters (R7).
-/

namespace Sys2Proof.Machine

/-- R27, R29: the block's one address space is a request's input buffer, byte-addressed from offset 0. -/
abbrev Memory := List Host.Cell

/-- The canonical form: the listed addresses are 0, 1, … in this order, up to the length less one (R29). So they
rise strictly, and a memory of length L has a byte at each offset below L and at no other. An unlisted address
reads as nothing (R36), so no entry can equal what an unlisted address reads as. -/
abbrev Memory.wf (m : Memory) : Prop := m.map Prod.fst = List.range m.length

/-- R18: a request is a command code and an input buffer. -/
structure Request where
  cmd : Cmd
  buf : Memory
  deriving DecidableEq, Repr

/-- R18, R61: the length L (or M) of a request's buffer, as delivered. -/
def Request.len (r : Request) : Nat := r.buf.length

/-- R20: the fields of a Frame; the payload is a window of the request's buffer. -/
structure Frame where
  opcode : Half
  opClass : OpClass
  payloadOff : Nat
  payloadLen : Nat
  deriving DecidableEq, Repr

/-- R20: what a Record or a DecodeError carries under PROCESS only. -/
structure Tag where
  opcode : Half
  opClass : OpClass
  deriving DecidableEq, Repr

/-- R20: the fields of a Record that both commands give; the channel data is a window of the request's buffer. -/
structure Record where
  protVerMajor : Byte
  protVerMinor : Byte
  sequence : Byte
  physical : Byte
  subUni : Byte
  net : Byte
  universeHi : Nibble
  subUniLo : Nibble
  absoluteUniverse : Half
  declaredLength : Half
  dataOff : Nat
  dataLen : Nat
  deriving DecidableEq, Repr

/-- R20: a response is one value of this closed type; each kind holds the fields it lists and no other (R21). -/
inductive Response where
  | notArtNet
  | frame (f : Frame)
  | acknowledged (opcode : Half) (opClass : OpClass)
  | unrecognized (opcode : Half)
  | record (tag : Option Tag) (d : Record)
  | decodeError (tag : Option Tag) (err : DecodeErr)
  deriving DecidableEq, Repr

/-- The state of one answered transaction: the request and its response. The response's windows name offsets of the
request's buffer, which the host keeps unchanged until it has taken the response (R25, R121). -/
structure Transaction where
  request : Request
  response : Response
  deriving DecidableEq, Repr

/-- Everything the spec gives the machine: the parameters of the instance (R7), the requests submitted and not yet
answered, oldest first (R26, R112), and the transactions answered and not yet taken, oldest first (R25, R112). That
either may hold several at once is DEDUCED (notes/assumptions/4.md: safe). -/
structure State where
  params : Params
  pending : List Request
  answers : List Transaction
  deriving DecidableEq, Repr

/-- R26, R116: no pending request and no response. The parameters are no state that reset sets; the spec leaves their
values open, and this state takes both as unbounded (DESIGN CHOICE, notes/assumptions/1.md: unsafe). -/
def State.reset : State := { params := Params.unbounded, pending := [], answers := [] }

/-- The reasons the machine stops with a fault. -/
inductive Fault where
  /-- Raised by a meaning when no request is in progress; `step` calls no meaning then (DESIGN CHOICE,
  notes/assumptions/12.md). Safe: no command exists to run. -/
  | noRequest
  /-- Raised by a read of a request's buffer at an address that holds no byte (R36, 92_eei_decisions.md D11).
  Safe: no rule reads there, and no well-formed buffer lets a meaning reach it (notes/assumptions/13.md). -/
  | noByte (addr : Nat)
  /-- Raised by a read of a response field that the response's kind does not list (R21). Safe: the field has no value. -/
  | unlistedField
  /-- Raised by a reader of a numeric code that no response holds (R62 to R64, 93_implementation_defined.md U10).
  Safe: no response holds one. -/
  | unusedCode
  deriving DecidableEq, Repr

/-- The reasons the machine refuses a request (R113); a refused run stays refused. -/
inductive Refusal where
  /-- Raised by an arm of `exec` that has no meaning yet. Safe: nothing can be proved of it. -/
  | notModelled (mnemonic : String)
  /-- R60, R113: raised by the command code 0b11. Safe: the spec gives it no response. -/
  | reservedCommand
  /-- R113: raised by PROCESS and CLASSIFY when `L > MAX_DATAGRAM_LEN`. Safe: the spec gives it no response. -/
  | datagramTooLong
  /-- R113: raised by DECODE_ARTDMX when `M > MAX_PAYLOAD_LEN`. Safe: the spec gives it no response. -/
  | payloadTooLong
  deriving DecidableEq, Repr

/-- How an instruction of this machine ends. -/
abbrev Result := Host.Outcome State Fault Refusal

end Sys2Proof.Machine
end

