-- ==== Sys2Proof/Machine/Ops.lean ====
section
/-!
DEFINITION. The named operations over buffers and transactions: reading a byte, reading a window, admitting and
answering the request in progress. The block takes no exception and returns from none (R100, R107): a failure is a
response value, and `answerWith` is the one way a response is given.
-/

namespace Sys2Proof.Machine

/-- The byte an address of a buffer holds; an unlisted address holds none. -/
def Memory.read : Memory → Nat → Option Byte
  | [], _ => none
  | (k, b) :: m, a => if k = a then some b else Memory.read m a

/-- The buffer that lists the bytes from an address on. -/
def Memory.ofBytesFrom : Nat → List Byte → Memory
  | _, [] => []
  | k, b :: bs => (k, b) :: Memory.ofBytesFrom (k + 1) bs

/-- The buffer a host delivers: its first byte at offset 0 (R28). -/
def Memory.ofBytes (bs : List Byte) : Memory := Memory.ofBytesFrom 0 bs

/-- The bytes of a buffer in address order. -/
def Request.bytes (r : Request) : List Byte := r.buf.map Prod.snd

/-- R10, R36: `MemRead(addr, 1)`, the block's only access; a byte at or beyond `L` has no value. -/
def memRead (r : Request) (a : Nat) : Except Fault Byte :=
  if a < r.len then
    match r.buf.read a with
    | some b => .ok b
    | none => .error (.noByte a)
  else .error (.noByte a)

/-- R9, R32: the bytes `B[off..off+n)` of a window. -/
def windowBytes (r : Request) (off : Nat) : Nat → Except Fault (List Byte)
  | 0 => .ok []
  | n + 1 => do
    let b ← memRead r off
    let bs ← windowBytes r (off + 1) n
    .ok (b :: bs)

/-- R7: whether a length exceeds a capacity. -/
def exceeds (cap : Option Nat) (len : Nat) : Bool :=
  match cap with
  | none => false
  | some n => n < len

/-- R112: the command of the request in progress, the oldest one not yet answered. -/
def fetch (s : State) : Option Instr := s.pending.head?.map fun r => decodeCommand r.cmd

/-- R99, R112: the request in progress gets its one response; the next request is then the one in progress. Nothing
else changes: the buffer is not written (R30) and the parameters stay. -/
def answerWith (s : State) (f : Request → Except Fault Response) : Result :=
  match s.pending with
  | [] => .fault .noRequest
  | r :: rest =>
    match f r with
    | .error e => .fault e
    | .ok v => .next { s with pending := rest, answers := s.answers ++ [⟨r, v⟩] }

/-- R113: the request in progress is admitted when its length is within the capacity, and is refused by name when not. -/
def checkCapacity (s : State) (cap : Option Nat) (why : Refusal) (k : State → Result) : Result :=
  match s.pending with
  | [] => .fault .noRequest
  | r :: _ => if exceeds cap r.len then .refused why else k s

end Sys2Proof.Machine
end

