-- ==== Sys2Proof/Machine/Operands.lean ====
section
/-!
DEFINITION. The operand forms: the header's two fields (R48 to R50), the eight bytes of the ArtDmx sub-header and what
is derived from them (R51 to R55), and the fixed lengths and offsets of R6.
-/

namespace Sys2Proof.Machine

/-- R6 HDR_LEN. -/
def hdrLen : Nat := 10

/-- R6 OPCODE_OFF. -/
def opcodeOff : Nat := 8

/-- R6 PAYLOAD_OFF, the winning reading of 90_conflicts.md C1. -/
def payloadOff : Nat := 10

/-- R6 SUBHDR_LEN. -/
def subhdrLen : Nat := 8

/-- R6 MIN_DMX_PAYLOAD: 10 and not 8 (R75). -/
def minDmxPayload : Nat := 10

/-- R68: the bytes from an address on are compared one by one; the first that differs decides. -/
def idMatches (r : Request) : Nat → List Byte → Except Fault Bool
  | _, [] => .ok true
  | a, b :: bs => do
    let x ← memRead r a
    if x = b then idMatches r (a + 1) bs else .ok false

/-- R69, then R68: the length guard comes first, so that no byte beyond `L` is read (R103). -/
def headerMatches (r : Request) : Except Fault Bool :=
  if r.len < hdrLen then .ok false else idMatches r 0 artnetIdBytes

/-- R50: the little-endian operation code at offsets 8 and 9. -/
def readOpcode (r : Request) : Except Fault Half := do
  let lo ← memRead r opcodeOff
  let hi ← memRead r (opcodeOff + 1)
  .ok (le16 lo hi)

/-- R52: the eight bytes of the sub-header. -/
structure SubHeader where
  protVerHi : Byte
  protVerLo : Byte
  sequence : Byte
  physical : Byte
  subUni : Byte
  net : Byte
  lengthHi : Byte
  lengthLo : Byte
  deriving DecidableEq, Repr

/-- R77: the sub-header is read in its fixed order, and no field is checked. -/
def readSubHeader (r : Request) (base : Nat) : Except Fault SubHeader := do
  let protVerHi ← memRead r (base + 0)
  let protVerLo ← memRead r (base + 1)
  let sequence ← memRead r (base + 2)
  let physical ← memRead r (base + 3)
  let subUni ← memRead r (base + 4)
  let net ← memRead r (base + 5)
  let lengthHi ← memRead r (base + 6)
  let lengthLo ← memRead r (base + 7)
  .ok { protVerHi, protVerLo, sequence, physical, subUni, net, lengthHi, lengthLo }

/-- R53: the big-endian declared length. -/
def declaredLengthOf (h : SubHeader) : Half := be16 h.lengthHi h.lengthLo

/-- R55, R81: the high nibble of SubUni. -/
def universeHiOf (subUni : Byte) : Nibble := subUni.extractLsb' 4 4

/-- R55, R81: the low nibble of SubUni. -/
def subUniLoOf (subUni : Byte) : Nibble := subUni.extractLsb' 0 4

/-- R82, R83: `net * 256 + subUni`, exact on naturals and then held in 16 bits. -/
def absoluteUniverseOf (net subUni : Byte) : Half := BitVec.ofNat 16 (net.toNat * 256 + subUni.toNat)

/-- R74, R80: the record of a sub-header whose length check passed. Which version byte is the major one is the spec's
decision D7 (DEDUCED, notes/assumptions/19.md: unsafe). -/
def recordOf (h : SubHeader) (base : Nat) : Record :=
  { protVerMajor := h.protVerHi
    protVerMinor := h.protVerLo
    sequence := h.sequence
    physical := h.physical
    subUni := h.subUni
    net := h.net
    universeHi := universeHiOf h.subUni
    subUniLo := subUniLoOf h.subUni
    absoluteUniverse := absoluteUniverseOf h.net h.subUni
    declaredLength := declaredLengthOf h
    dataOff := base + subhdrLen
    dataLen := (declaredLengthOf h).toNat }

end Sys2Proof.Machine
end

