-- ==== Sys2Proof/Machine/Classifier.lean ====
section
/-!
DEFINITION. The Frame Classifier (R66 to R73): the shared operation `classifyFrame`, the command CLASSIFY and the header
row ARTNET_ID.
-/

namespace Sys2Proof.Machine

/-- R67: `none` is NotArtNet. Nothing is read after a failed check, and nothing from offset 10 on (R73). -/
def classifyFrame (r : Request) : Except Fault (Option Frame) := do
  let ok ← headerMatches r
  if ok then
    let opcode ← readOpcode r
    .ok (some { opcode, opClass := demux opcode, payloadOff := payloadOff, payloadLen := r.len - hdrLen })
  else .ok none

/-- R66: the classifier's answer, a Frame or NotArtNet. -/
def classifyResponse (r : Request) : Except Fault Response := do
  match ← classifyFrame r with
  | none => .ok .notArtNet
  | some f => .ok (.frame f)

/-- R67: CLASSIFY. A request longer than the capacity is refused (R113). -/
def execClassify (s : State) : Result :=
  checkCapacity s s.params.maxDatagramLen .datagramTooLong fun s => answerWith s classifyResponse

/-- R68, R69: the header check that CLASSIFY and PROCESS apply before the operation-code rows. A failed check answers
NotArtNet. A check that passes gives no response and writes nothing: the request stays in progress for the part of
its command that follows the check (DESIGN CHOICE, notes/assumptions/2.md: safe). -/
def execArtnetId (s : State) : Result :=
  match s.pending with
  | [] => .fault .noRequest
  | r :: _ =>
    match headerMatches r with
    | .error e => .fault e
    | .ok true => .next s
    | .ok false => answerWith s fun _ => .ok .notArtNet

end Sys2Proof.Machine
end

