-- ==== Sys2Proof/Machine/Artdmx.lean ====
section
/-!
DEFINITION. The ArtDmx payload parser (R74 to R88): the shared operation `decodePayload` and the command DECODE_ARTDMX.
-/

namespace Sys2Proof.Machine

/-- R74: decode the payload of `M` bytes at `base`. TooShort is tested first and decides alone (R76); the length check is
an exact equality (R78); nothing else is checked (R84); no partial record is given (R86). -/
def decodePayload (r : Request) (base M : Nat) (tag : Option Tag) : Except Fault Response :=
  if M < minDmxPayload then .ok (.decodeError tag .tooShort)
  else do
    let h ← readSubHeader r base
    if M - subhdrLen ≠ (declaredLengthOf h).toNat then .ok (.decodeError tag .lengthMismatch)
    else .ok (.record tag (recordOf h base))

/-- R74, R88: DECODE_ARTDMX decodes its whole buffer, whatever operation code came before. A request longer than the
capacity is refused (R113). -/
def execDecodeArtdmx (s : State) : Result :=
  checkCapacity s s.params.maxPayloadLen .payloadTooLong fun s =>
    answerWith s fun r => decodePayload r 0 r.len none

end Sys2Proof.Machine
end

