-- ==== Sys2Proof/Machine/Routes.lean ====
section
/-!
DEFINITION. The routes of a classified datagram (R90 to R97): one meaning for each OP_* row. PROCESS runs the row of the
datagram's operation code once the request is admitted and its header check has passed.
-/

namespace Sys2Proof.Machine

/-- R91: the Poll route; the payload is not read. -/
def execOpPoll (s : State) : Result := answerWith s fun _ => .ok (.acknowledged opPollCode .poll)

/-- R92: the PollReply route; the payload is not read. -/
def execOpPollReply (s : State) : Result :=
  answerWith s fun _ => .ok (.acknowledged opPollReplyCode .pollReply)

/-- R93: the Sync route; the payload is not read. -/
def execOpSync (s : State) : Result := answerWith s fun _ => .ok (.acknowledged opSyncCode .sync)

/-- R94: the Unknown route, with the whole code; the payload is not read. -/
def execOpUnknown (code : Half) (s : State) : Result := answerWith s fun _ => .ok (.unrecognized code)

/-- R96, R97: what every response of the Dmx route carries. -/
def dmxTag : Tag := { opcode := opDmxCode, opClass := .dmx }

/-- R95 to R97: the Dmx route decodes the payload window in place, `base = 10` and `M = L - 10`. PROCESS takes it
only with `L >= 10`; on a shorter buffer the difference is 0 here (DEDUCED, notes/assumptions/17.md: safe). -/
def execOpDmx (s : State) : Result :=
  answerWith s fun r => decodePayload r payloadOff (r.len - hdrLen) (some dmxTag)

end Sys2Proof.Machine
end

