-- ==== Sys2Proof/Machine/Commands.lean ====
section
/-!
DEFINITION. PROCESS (R89), the composition of the classifier and the routes, and the reserved command (R60).
-/

namespace Sys2Proof.Machine

/-- R89: the route of an operation class. -/
def routeOf (c : OpClass) (s : State) : Result :=
  match c with
  | .poll => execOpPoll s
  | .pollReply => execOpPollReply s
  | .dmx => execOpDmx s
  | .sync => execOpSync s
  | .unknown code => execOpUnknown code s

/-- R89 after admission: classify, then take the route of the class; NotArtNet comes before everything (R90, R103).
The routes are the meanings of the OP_* rows, so PROCESS runs the row its datagram names (DEDUCED,
notes/assumptions/6.md: safe). -/
def processAdmitted (s : State) : Result :=
  match s.pending with
  | [] => .fault .noRequest
  | r :: _ =>
    match classifyFrame r with
    | .error e => .fault e
    | .ok none => answerWith s fun _ => .ok .notArtNet
    | .ok (some f) => routeOf f.opClass s

/-- R89: PROCESS. A request longer than the capacity is refused (R113). -/
def execProcess (s : State) : Result :=
  checkCapacity s s.params.maxDatagramLen .datagramTooLong processAdmitted

/-- R60, R113: the command code 0b11 spells no operation; the request is refused and gets no response. -/
def execReservedCmd (_ : State) : Result := .refused .reservedCommand

end Sys2Proof.Machine
end

