-- ==== Sys2Proof/Machine/Dispatch.lean ====
section
/-!
DEFINITION. One arm per instruction.
-/

namespace Sys2Proof.Machine

def exec (i : Instr) (s : State) : Host.Outcome State Fault Refusal :=
  match i with
  | .process => Sys2Proof.Machine.execProcess s
  | .classify => Sys2Proof.Machine.execClassify s
  | .decodeArtdmx => Sys2Proof.Machine.execDecodeArtdmx s
  | .reservedCmd => Sys2Proof.Machine.execReservedCmd s
  | .artnetId => Sys2Proof.Machine.execArtnetId s
  | .opPoll => Sys2Proof.Machine.execOpPoll s
  | .opPollReply => Sys2Proof.Machine.execOpPollReply s
  | .opDmx => Sys2Proof.Machine.execOpDmx s
  | .opSync => Sys2Proof.Machine.execOpSync s
  | .opUnknown code => Sys2Proof.Machine.execOpUnknown code s

end Sys2Proof.Machine
end

