-- ==== Sys2Proof/Machine/Requests.lean ====
section
/-!
DEFINITION. The host's side: the moves of R25 (submit, take response, reset), the written form of requests (R65), and the
request in which a table row's word comes to be the one the block runs next.
-/

namespace Sys2Proof.Machine

/-- R25 submit: the request joins the ones not yet answered, as the youngest (R112). The host has no move that changes a
buffer (R25, R120; notes/assumptions/9.md: unsafe). -/
def State.submit (s : State) (r : Request) : State := { s with pending := s.pending ++ [r] }

/-- R25 take response: the oldest answered transaction is handed over (that several may stand untaken is DEDUCED,
notes/assumptions/4.md: safe), and the block holds it no more (R43). -/
def State.take (s : State) : Option (Transaction × State) :=
  match s.answers with
  | [] => none
  | t :: rest => some (t, { s with answers := rest })

/-- R25 reset, R116, R117: every pending request is abandoned without a response, and no response is left
(that a response not yet taken goes too is DEDUCED, notes/assumptions/7.md: unsafe). The parameters are fixed for the
instance (R119). -/
def State.resetSignal (s : State) : State := { s with pending := [], answers := [] }

/-- R65 `OP(x)`: two bytes, low byte first. -/
def macroOp (x : Half) : List Byte := opBytes x

/-- R65 `LEN(n)`: two bytes, high byte first. -/
def macroLen (n : Half) : List Byte := lenBytes n

/-- R65 `ZERO(k)`: `k` bytes of 00. -/
def macroZero (k : Nat) : List Byte := List.replicate k 0

/-- R65 `PROCESS <bytes>`. -/
def processRequest (bs : List Byte) : Request := { cmd := 0, buf := Memory.ofBytes bs }

/-- R65 `CLASSIFY <bytes>`. -/
def classifyRequest (bs : List Byte) : Request := { cmd := 1, buf := Memory.ofBytes bs }

/-- R65 `DECODE <bytes>`. -/
def decodeRequest (bs : List Byte) : Request := { cmd := 2, buf := Memory.ofBytes bs }

/-- R65 `POLL`. -/
def pollRequest : Request := processRequest (artnetIdBytes ++ macroOp 0x2000)

/-- R65 `POLLREPLY`. -/
def pollReplyRequest : Request := processRequest (artnetIdBytes ++ macroOp 0x2100)

/-- R65 `SYNC`. -/
def syncRequest : Request := processRequest (artnetIdBytes ++ macroOp 0x5200)

/-- R65: the payload that `DMX hi lo seq phys subuni net [data]` writes, its length bytes counting the data. -/
def dmxPayload (hi lo seq phys subuni net : Byte) (data : List Byte) : List Byte :=
  [hi, lo, seq, phys, subuni, net] ++ macroLen (BitVec.ofNat 16 data.length) ++ data

/-- R65 `DMX hi lo seq phys subuni net [data]`. -/
def dmxRequest (hi lo seq phys subuni net : Byte) (data : List Byte) : Request :=
  processRequest (artnetIdBytes ++ macroOp 0x5000 ++ dmxPayload hi lo seq phys subuni net data)

/-- The request that a table row's word stands for (DESIGN CHOICE, notes/assumptions/5.md: safe). A command word is a request with an empty buffer. An operation
code is the PROCESS request of the shortest datagram that carries it, as R65 writes POLL and SYNC. A header is the
PROCESS request of the datagram it begins, the bytes above the word zero. -/
def wordRequest (nbits w : Nat) : Request :=
  match tableFormat nbits with
  | .command2 => { cmd := BitVec.ofNat 2 w, buf := Memory.ofBytes [] }
  | .opCode16 => processRequest (artnetIdBytes ++ wordBytes 2 w)
  | .header10 => processRequest (wordBytes (max 10 ((nbits + 7) / 8)) w)

end Sys2Proof.Machine
end

