-- ==== Sys2Proof/Machine/Step.lean ====
section
/-!
DEFINITION. One step of the block (R24): it answers the request in progress as one atomic transition.
-/

namespace Sys2Proof.Machine

/-- R24, R112: the block runs the command of the oldest request not yet answered. With no such request it has nothing
to do, and nothing changes (DESIGN CHOICE, notes/assumptions/3.md: safe). One block is modelled, without time (DESIGN CHOICE,
notes/assumptions/10.md: safe, notes/assumptions/11.md: unsafe). -/
def step (s : State) : Host.Outcome State Fault Refusal :=
  match fetch s with
  | none => .next s
  | some i => exec i s

/-- The state in which the block's next request is the one that a table row's word stands for. Requests already
submitted wait behind it. -/
def State.withFetchWord (s : State) (nbits w : Nat) : State :=
  { s with pending := wordRequest nbits w :: s.pending }

end Sys2Proof.Machine
end

