-- ==== Sys2Proof/Machine/Flags.lean ====
section
/-!
DEFINITION. The status a request leaves. The block has no flags (R16): the kind of a response and the `err` field of a
DecodeError are the only status (R22). Here are their numeric codes (R62 to R64), the readers of those codes, and the
reading of one field of a response, which faults where the kind lists no such field (R21).
-/

namespace Sys2Proof.Machine

/-- R62: the names of the response kinds. -/
inductive RespKind where
  | notArtNet
  | frame
  | acknowledged
  | unrecognized
  | record
  | decodeError
  deriving DecidableEq, Repr

/-- R20: the kind of a response. -/
def kindOf (v : Response) : RespKind :=
  match v with
  | .notArtNet => .notArtNet
  | .frame _ => .frame
  | .acknowledged _ _ => .acknowledged
  | .unrecognized _ => .unrecognized
  | .record _ _ => .record
  | .decodeError _ _ => .decodeError

/-- R62: the 3-bit code of a kind. -/
def kindCode (k : RespKind) : BitVec 3 :=
  match k with
  | .notArtNet => 0
  | .frame => 1
  | .acknowledged => 2
  | .unrecognized => 3
  | .record => 4
  | .decodeError => 5

/-- The kind a code names; codes 6 and 7 are never produced, and reading one faults (U10). -/
def kindOfCode (c : BitVec 3) : Except Fault RespKind :=
  if c = 0 then .ok .notArtNet
  else if c = 1 then .ok .frame
  else if c = 2 then .ok .acknowledged
  else if c = 3 then .ok .unrecognized
  else if c = 4 then .ok .record
  else if c = 5 then .ok .decodeError
  else .error .unusedCode

/-- R63: the 3-bit code of an operation class. -/
def classCode (c : OpClass) : BitVec 3 :=
  match c with
  | .unknown _ => 0
  | .poll => 1
  | .pollReply => 2
  | .dmx => 3
  | .sync => 4

/-- The class a class code and the operation code beside it name; codes 5 to 7 fault (U10). -/
def classOfCode (c : BitVec 3) (opcode : Half) : Except Fault OpClass :=
  if c = 0 then .ok (.unknown opcode)
  else if c = 1 then .ok .poll
  else if c = 2 then .ok .pollReply
  else if c = 3 then .ok .dmx
  else if c = 4 then .ok .sync
  else .error .unusedCode

/-- R64: the 2-bit code of a decode error. -/
def errCode (e : DecodeErr) : BitVec 2 :=
  match e with
  | .tooShort => 1
  | .lengthMismatch => 2

/-- The error a code names; codes 0 and 3 fault (U10). -/
def errOfCode (c : BitVec 2) : Except Fault DecodeErr :=
  if c = 1 then .ok .tooShort
  else if c = 2 then .ok .lengthMismatch
  else .error .unusedCode

/-- R20: the names of the response fields. -/
inductive RespField where
  | opcode
  | opClass
  | payloadOff
  | payloadLen
  | protVerMajor
  | protVerMinor
  | sequence
  | physical
  | subUni
  | net
  | universeHi
  | subUniLo
  | absoluteUniverse
  | declaredLength
  | dataOff
  | dataLen
  | err
  deriving DecidableEq, Repr

/-- R20: the fields of a Frame, as numbers (a class by its code, R63). -/
def readFrame (f : Frame) (x : RespField) : Except Fault Nat :=
  match x with
  | .opcode => .ok f.opcode.toNat
  | .opClass => .ok (classCode f.opClass).toNat
  | .payloadOff => .ok f.payloadOff
  | .payloadLen => .ok f.payloadLen
  | _ => .error .unlistedField

/-- R20: the two fields that a Record or a DecodeError has under PROCESS only. -/
def readTag (tag : Option Tag) (x : RespField) : Except Fault Nat :=
  match tag, x with
  | some t, .opcode => .ok t.opcode.toNat
  | some t, .opClass => .ok (classCode t.opClass).toNat
  | _, _ => .error .unlistedField

/-- R20: the fields of a Record that both commands give. -/
def readRecord (tag : Option Tag) (d : Record) (x : RespField) : Except Fault Nat :=
  match x with
  | .protVerMajor => .ok d.protVerMajor.toNat
  | .protVerMinor => .ok d.protVerMinor.toNat
  | .sequence => .ok d.sequence.toNat
  | .physical => .ok d.physical.toNat
  | .subUni => .ok d.subUni.toNat
  | .net => .ok d.net.toNat
  | .universeHi => .ok d.universeHi.toNat
  | .subUniLo => .ok d.subUniLo.toNat
  | .absoluteUniverse => .ok d.absoluteUniverse.toNat
  | .declaredLength => .ok d.declaredLength.toNat
  | .dataOff => .ok d.dataOff
  | .dataLen => .ok d.dataLen
  | _ => readTag tag x

/-- R20, R21: one field of a response, as a number; a field the kind does not list faults. The `opClass` of an
Unrecognized response is Unknown, code 0 (R20, R63; DEDUCED, notes/assumptions/15.md: safe). -/
def readField (v : Response) (x : RespField) : Except Fault Nat :=
  match v with
  | .notArtNet => .error .unlistedField
  | .frame f => readFrame f x
  | .acknowledged opcode opClass => readTag (some ⟨opcode, opClass⟩) x
  | .unrecognized opcode => readTag (some ⟨opcode, .unknown opcode⟩) x
  | .record tag d => readRecord tag d x
  | .decodeError tag e => if x = .err then .ok (errCode e).toNat else readTag tag x

/-- R20, R79: the channel data of a Record, the window of the transaction's buffer, as long as the host has not taken the
response (notes/assumptions/16.md: safe); other kinds list no such window. -/
def channelData (t : Transaction) : Except Fault (List Byte) :=
  match t.response with
  | .record _ d => windowBytes t.request d.dataOff d.dataLen
  | _ => .error .unlistedField

/-- R20, R70: the payload of a Frame, the window of the transaction's buffer; other kinds list no such window. -/
def framePayload (t : Transaction) : Except Fault (List Byte) :=
  match t.response with
  | .frame f => windowBytes t.request f.payloadOff f.payloadLen
  | _ => .error .unlistedField

end Sys2Proof.Machine
end

