-- ==== Sys2Proof/WellFormed.lean ====
section
/-!
DEFINITION. Which instructions are words of their row. One row has a condition: OP_UNKNOWN matches only an operation
code that no other OP_* row matches exactly (R57 and the row's note).
-/

namespace Sys2Proof

/-- R57: `opUnknown` carries none of the four known codes; every other instruction has no operand to check. -/
def Instr.wellFormed (i : Instr) : Bool :=
  match i with
  | .opUnknown code =>
    code != opPollCode && code != opPollReplyCode && code != opDmxCode && code != opSyncCode
  | .process | .classify | .decodeArtdmx | .reservedCmd => true
  | .artnetId => true
  | .opPoll | .opPollReply | .opDmx | .opSync => true

end Sys2Proof
end

