-- ==== Sys2Proof/Safety.lean ====
section
/-!
DEFINITION. The terms claims are stated in: what the rules answer to a request, written over the bytes of its buffer and
apart from the meanings (R69, R85, R98), what an admitted request is (R113), the invariant of the machine's transactions,
and the frame of an instruction.
-/

namespace Sys2Proof.Safety

open Sys2Proof.Machine

/-- R49, as numbers. -/
def identifier : List Byte := [0x41, 0x72, 0x74, 0x2D, 0x4E, 0x65, 0x74, 0x00]

/-- R69: the datagram has the whole header and begins with the identifier. -/
def hasHeader (bs : List Byte) : Bool := decide (10 ≤ bs.length) && decide (bs.take 8 = identifier)

/-- The byte at an offset below the length. -/
def byteAt (bs : List Byte) (k : Nat) : Byte := bs.getD k 0

/-- R50 in arithmetic: byte 8 plus 256 times byte 9. -/
def opcodeNat (bs : List Byte) : Nat := (byteAt bs 8).toNat + 256 * (byteAt bs 9).toNat

/-- R50: the operation code of a datagram. -/
def opcodeIn (bs : List Byte) : Half := BitVec.ofNat 16 (opcodeNat bs)

/-- R53 in arithmetic: 256 times payload byte 6 plus payload byte 7. -/
def declaredNat (p : List Byte) : Nat := 256 * (byteAt p 6).toNat + (byteAt p 7).toNat

/-- R56: the class of an operation code. -/
def classOf (opcode : Half) : OpClass :=
  if opcode = 0x2000 then .poll
  else if opcode = 0x2100 then .pollReply
  else if opcode = 0x5000 then .dmx
  else if opcode = 0x5200 then .sync
  else .unknown opcode

/-- R74: the record of a payload that starts at offset `base` of its buffer. -/
def recordIn (base : Nat) (p : List Byte) : Record :=
  { protVerMajor := byteAt p 0
    protVerMinor := byteAt p 1
    sequence := byteAt p 2
    physical := byteAt p 3
    subUni := byteAt p 4
    net := byteAt p 5
    universeHi := BitVec.ofNat 4 ((byteAt p 4).toNat / 16)
    subUniLo := BitVec.ofNat 4 ((byteAt p 4).toNat % 16)
    absoluteUniverse := BitVec.ofNat 16 ((byteAt p 5).toNat * 256 + (byteAt p 4).toNat)
    declaredLength := BitVec.ofNat 16 (declaredNat p)
    dataOff := base + 8
    dataLen := declaredNat p }

/-- R75, R78, R85: the answer to a payload that starts at offset `base` of its buffer. -/
def payloadAnswer (tag : Option Tag) (base : Nat) (p : List Byte) : Response :=
  if p.length < 10 then .decodeError tag .tooShort
  else if p.length ≠ 8 + declaredNat p then .decodeError tag .lengthMismatch
  else .record tag (recordIn base p)

/-- R66: the answer of CLASSIFY. -/
def classifyAnswer (bs : List Byte) : Response :=
  if hasHeader bs then
    .frame { opcode := opcodeIn bs, opClass := classOf (opcodeIn bs), payloadOff := 10, payloadLen := bs.length - 10 }
  else .notArtNet

/-- R96, R97: what a response of the Dmx route carries. -/
def dmxRoute : Tag := { opcode := 0x5000, opClass := .dmx }

/-- R90 to R98: the answer of PROCESS. -/
def processAnswer (bs : List Byte) : Response :=
  if hasHeader bs then
    if opcodeIn bs = 0x5000 then payloadAnswer (some dmxRoute) 10 (bs.drop 10)
    else if opcodeIn bs = 0x2000 then .acknowledged 0x2000 .poll
    else if opcodeIn bs = 0x2100 then .acknowledged 0x2100 .pollReply
    else if opcodeIn bs = 0x5200 then .acknowledged 0x5200 .sync
    else .unrecognized (opcodeIn bs)
  else .notArtNet

/-- R59, R60: the one response to a request, a function of its command and its bytes alone; the reserved command has
none. -/
def answerTo (cmd : Cmd) (bs : List Byte) : Option Response :=
  if cmd = 0 then some (processAnswer bs)
  else if cmd = 1 then some (classifyAnswer bs)
  else if cmd = 2 then some (payloadAnswer none 0 bs)
  else none

/-- R7: a length is within a capacity; `none` bounds nothing. -/
abbrev within (cap : Option Nat) (len : Nat) : Prop := cap.all (fun n => decide (len ≤ n)) = true

/-- R113: the block does not refuse the request. -/
abbrev Admitted (p : Params) (r : Request) : Prop :=
  r.cmd ≠ 3 ∧ (r.cmd = 0 ∨ r.cmd = 1 → within p.maxDatagramLen r.len) ∧ (r.cmd = 2 → within p.maxPayloadLen r.len)

/-- R99, R112: the state after the request in progress, `r` before `rest`, got the response `v`. -/
def answered (s : State) (r : Request) (rest : List Request) (v : Response) : State :=
  { s with pending := rest, answers := s.answers ++ [⟨r, v⟩] }

/-- A transaction is sound when its buffer is in the canonical form, the block does not refuse its request, and its
response is the one the rules answer. -/
def Sound (p : Params) (t : Transaction) : Prop :=
  t.request.buf.wf ∧ Admitted p t.request ∧ answerTo t.request.cmd t.request.bytes = some t.response

/-- The invariant of the machine: every buffer is in the canonical form and every answer is the one the rules give. -/
def Inv (s : State) : Prop :=
  (∀ r ∈ s.pending, r.buf.wf) ∧ ∀ t ∈ s.answers, Sound s.params t

/-- Every buffer the state holds, the ones of answered transactions first, then those of pending requests. -/
def buffers (s : State) : List Memory := s.answers.map (·.request.buf) ++ s.pending.map (·.buf)

/-- Every byte of every buffer reads in `t` as it does in `s`. -/
def SameBytes (s t : State) : Prop :=
  ∀ k a : Nat, ((buffers t)[k]?).map (fun m => Memory.read m a) = ((buffers s)[k]?).map (fun m => Memory.read m a)

/-- The frame of an instruction that answers the request in progress: where it gives a next state, one response is
given and put last, the request leaves `pending`, and nothing else changes; and every byte of every buffer reads as
before (R19, R30). -/
def AnswerFrame (i : Instr) : Prop :=
  ∀ s t, exec i s = .next t →
    (∃ r rest v, s.pending = r :: rest ∧
      t.params = s.params ∧ t.pending = rest ∧ t.answers = s.answers ++ [⟨r, v⟩]) ∧
    SameBytes s t

/-- The response that PROCESS gives for a Dmx frame, made from the one DECODE_ARTDMX gives for its payload in a buffer of
its own: the operation code and class are added (R96, R97) and the data window moves by the ten header bytes. -/
def underProcess (v : Response) : Response :=
  match v with
  | .record _ d => .record (some dmxRoute) { d with dataOff := d.dataOff + 10 }
  | .decodeError _ e => .decodeError (some dmxRoute) e
  | .notArtNet => .notArtNet
  | .frame f => .frame f
  | .acknowledged o c => .acknowledged o c
  | .unrecognized o => .unrecognized o

/-- R20: the fields each kind lists. -/
def fieldsOf (v : Response) : List RespField :=
  match v with
  | .notArtNet => []
  | .frame _ => [.opcode, .opClass, .payloadOff, .payloadLen]
  | .acknowledged _ _ => [.opcode, .opClass]
  | .unrecognized _ => [.opcode, .opClass]
  | .record tag _ =>
    (if tag.isSome then [.opcode, .opClass] else []) ++
      [.protVerMajor, .protVerMinor, .sequence, .physical, .subUni, .net, .universeHi, .subUniLo,
       .absoluteUniverse, .declaredLength, .dataOff, .dataLen]
  | .decodeError tag _ => .err :: (if tag.isSome then [.opcode, .opClass] else [])

/-- R62: the kinds each command produces. -/
def kindsOf (cmd : Cmd) : List RespKind :=
  if cmd = 0 then [.notArtNet, .acknowledged, .unrecognized, .record, .decodeError]
  else if cmd = 1 then [.notArtNet, .frame]
  else if cmd = 2 then [.record, .decodeError]
  else []

/-- R113: the step refuses by the name, and so does every run that begins with it. -/
def RefusedForGood (s : State) (why : Refusal) : Prop :=
  step s = .refused why ∧ ∀ k, Host.Core.run core (k + 1) s = .refused why

/-- Two results agree on the response they give: the same refusal or fault, or next states whose last transactions
hold the same response. -/
def SameResponse (x y : Result) : Prop :=
  match x, y with
  | .next t, .next u => (t.answers.getLast?.map (·.response)) = (u.answers.getLast?.map (·.response))
  | .fault a, .fault b => a = b
  | .refused a, .refused b => a = b
  | _, _ => False

end Sys2Proof.Safety
end

