-- ==== Sys2Proof/Certificates/Slice0/Obligations.lean ====
section
/-!
DEFINITION. The statements for the provers.
-/

open Sys2Proof Sys2Proof.Machine Sys2Proof.Safety

/-! ### Encoding -/

/-- Every well-formed row, encoded and followed by anything that gives its format its bytes, decodes to itself. -/
def Obligations.DecodeOfEncodedRow : Prop :=
  ∀ i : Instr, i.wellFormed = true → ∀ rest : List Byte, (formatOf i).len ≤ (encode i ++ rest).length →
    decode (formatOf i) (encode i ++ rest) = .ok (i, rest)

/-- The other direction: what the decoder reads is well formed and of the format asked for, and the bytes it consumed are
that row's encoding; of a command byte only the two command bits count. -/
def Obligations.DecodedRowIsItsEncoding : Prop :=
  ∀ (f : RowFormat) (bs : List Byte) (i : Instr) (rest : List Byte), decode f bs = .ok (i, rest) →
    i.wellFormed = true ∧ formatOf i = f ∧
      (f ≠ .command2 → bs = encode i ++ rest) ∧
      (f = .command2 → ∃ c : Byte, bs = c :: rest ∧ encode i = [(c.setWidth 2).setWidth 8])

/-- A word of the opcode table decodes to its row whatever its bits above the ones the row fixes. -/
def Obligations.TableWordDecodesToItsRow : Prop :=
  (∀ w : Nat,
    (w % 4 = 0 → decodeTableWord 8 w = some .process) ∧ (w % 4 = 1 → decodeTableWord 8 w = some .classify) ∧
    (w % 4 = 2 → decodeTableWord 8 w = some .decodeArtdmx) ∧ (w % 4 = 3 → decodeTableWord 8 w = some .reservedCmd)) ∧
  (∀ w : Nat, w % 2 ^ 64 = 0x0074654E2D747241 → decodeTableWord 80 w = some .artnetId) ∧
  (∀ w : Nat, w % 2 ^ 64 ≠ 0x0074654E2D747241 → decodeTableWord 80 w = none) ∧
  (∀ w : Nat,
    (w % 65536 = 0x2000 → decodeTableWord 16 w = some .opPoll) ∧
    (w % 65536 = 0x2100 → decodeTableWord 16 w = some .opPollReply) ∧
    (w % 65536 = 0x5000 → decodeTableWord 16 w = some .opDmx) ∧
    (w % 65536 = 0x5200 → decodeTableWord 16 w = some .opSync) ∧
    (w % 65536 ≠ 0x2000 ∧ w % 65536 ≠ 0x2100 ∧ w % 65536 ≠ 0x5000 ∧ w % 65536 ≠ 0x5200 →
      decodeTableWord 16 w = some (.opUnknown (BitVec.ofNat 16 w))))

/-- Words of each format, written out from the spec's tables (R49, R56, R58, R59), decode to the rows they stand for. -/
def Obligations.SampleWordsDecode : Prop :=
  decode .command2 [0b00] = .ok (.process, []) ∧ decode .command2 [0b01] = .ok (.classify, []) ∧
  decode .command2 [0b10] = .ok (.decodeArtdmx, []) ∧ decode .command2 [0b11] = .ok (.reservedCmd, []) ∧
  decode .header10 [0x41, 0x72, 0x74, 0x2D, 0x4E, 0x65, 0x74, 0x00, 0x00, 0x50] = .ok (.artnetId, [0x00, 0x50]) ∧
  decode .header10 [0x61, 0x72, 0x74, 0x2D, 0x4E, 0x65, 0x74, 0x00, 0x00, 0x50] = .error .notIdentifier ∧
  decode .opCode16 [0x00, 0x20] = .ok (.opPoll, []) ∧ decode .opCode16 [0x00, 0x21] = .ok (.opPollReply, []) ∧
  decode .opCode16 [0x00, 0x50] = .ok (.opDmx, []) ∧ decode .opCode16 [0x00, 0x52] = .ok (.opSync, []) ∧
  decode .opCode16 [0x50, 0x00] = .ok (.opUnknown 0x0050, [])

/-- R57: a known class matches only when all 16 bits are equal to its value; Unknown matches exactly when none does, and
carries the whole code. -/
def Obligations.OpcodeClassIsExact : Prop :=
  ∀ c : Half,
    (demux c = .poll ↔ c = 0x2000) ∧ (demux c = .pollReply ↔ c = 0x2100) ∧
    (demux c = .dmx ↔ c = 0x5000) ∧ (demux c = .sync ↔ c = 0x5200) ∧
    ∀ k : Half, demux c = .unknown k ↔ k = c ∧ c ≠ 0x2000 ∧ c ≠ 0x2100 ∧ c ≠ 0x5000 ∧ c ≠ 0x5200

/-! ### The buffer -/

/-- R36: a byte at or beyond `L` has no value, so reading one faults; below `L` a canonical buffer gives its byte. -/
def Obligations.ReadAtOrBeyondLengthFaults : Prop :=
  ∀ (r : Request) (a : Nat),
    (r.len ≤ a → memRead r a = .error (.noByte a)) ∧
    (r.buf.wf → a < r.len → memRead r a = .ok (byteAt r.bytes a))

/-- R36: no rule reads at or beyond `L`: a step faults only on a buffer that is not in the canonical form. -/
def Obligations.StepFaultsOnlyOnBrokenBuffer : Prop :=
  ∀ (s : State) (f : Fault), step s = .fault f →
    ∃ r rest, s.pending = r :: rest ∧ ¬ r.buf.wf

/-! ### The step -/

/-- The step runs the instruction that the command of the oldest pending request decodes to, and adds nothing around it.
That a step with no request pending changes nothing is the model's choice (notes/assumptions/3.md). -/
def Obligations.StepRunsTheDecodedCommand : Prop :=
  (∀ (s : State) (r : Request) (rest : List Request) (c : Byte) (i : Instr), s.pending = r :: rest →
    c.setWidth 2 = r.cmd → decode .command2 [c] = .ok (i, []) → step s = exec i s) ∧
  ∀ s : State, s.pending = [] → step s = .next s

/-- A PROCESS request runs the rows of its datagram: where the header is an Art-Net header, the header row passes and
the step is the meaning of the operation-code row; where it is not, the step is the meaning of the header row. -/
def Obligations.ProcessRunsTheRowsOfItsDatagram : Prop :=
  ∀ (s : State) (r : Request) (rest : List Request), s.pending = r :: rest → r.buf.wf → r.cmd = 0 →
    within s.params.maxDatagramLen r.len →
    (∀ i more, decode .header10 r.bytes = .ok (.artnetId, more) → decode .opCode16 more = .ok (i, r.bytes.drop 10) →
      exec .artnetId s = .next s ∧ step s = exec i s) ∧
    (∀ e, decode .header10 r.bytes = .error e → step s = exec .artnetId s)

/-- A word of an operation-code row, placed where the block takes its next request, is run by the very next step. -/
def Obligations.PlacedOpcodeWordRunsItsRow : Prop :=
  ∀ (s : State) (w : Nat) (i : Instr), within s.params.maxDatagramLen 10 → decodeTableWord 16 w = some i →
    step (s.withFetchWord 16 w) = exec i (s.withFetchWord 16 w)

/-- Every admitted request gets exactly the response the rules give, and nothing else changes. -/
def Obligations.StepAnswersByTheRules : Prop :=
  ∀ (s : State) (r : Request) (rest : List Request), s.pending = r :: rest → r.buf.wf → Admitted s.params r →
    ∃ v, answerTo r.cmd r.bytes = some v ∧ step s = .next (answered s r rest v)

/-- R112: one instance answers its requests one at a time, in the order they were submitted, one response per admitted
request: as many steps as there are requests answer them all, in order, each by the rules. -/
def Obligations.RunAnswersRequestsInOrder : Prop :=
  ∀ s : State, (∀ r ∈ s.pending, r.buf.wf ∧ Admitted s.params r) →
    ∃ ts : List Transaction,
      Host.Core.run core s.pending.length s =
        .next { s with pending := [], answers := s.answers ++ ts } ∧
      ts.map (·.request) = s.pending ∧
      ∀ t ∈ ts, answerTo t.request.cmd t.request.bytes = some t.response

/-- The invariant of the machine's transactions is kept by every step. -/
def Obligations.StepKeepsSoundTransactions : Prop :=
  ∀ s t : State, Inv s → step s = .next t → Inv t

/-- The invariant holds at reset. -/
def Obligations.ResetHasSoundTransactions : Prop := Inv State.reset

/-- R23: two requests with equal command and equal buffer contents get equal responses, whatever came between them: the
step's outcome depends on the request in progress (and the instance's parameters) and on nothing else the state holds. -/
def Obligations.ResponseDependsOnRequestAlone : Prop :=
  ∀ (s u : State) (r : Request) (rest more : List Request), s.params = u.params →
    s.pending = r :: rest → u.pending = r :: more → SameResponse (step s) (step u)

/-- R107: after any response, failed or not, the block is in the same state as before the request: once the response is
taken nothing of the request is left. -/
def Obligations.StateAfterResponseIsStateBefore : Prop :=
  ∀ (s : State) (r : Request), s.pending = [] → s.answers = [] → r.buf.wf → Admitted s.params r →
    ∃ t v, step (s.submit r) = .next t ∧ t.take = some (⟨r, v⟩, s)

/-- Derived from R26, R116 and R117: after reset no request is pending and no response exists, and the first request after
reset behaves exactly as the same request at any later time. That the reset signal also leaves no response given before it
and not yet taken is DEDUCED (notes/assumptions/7.md). -/
def Obligations.ResetLeavesNoRequestAndNoResponse : Prop :=
  (State.reset.pending = [] ∧ State.reset.answers = []) ∧
  (∀ s : State, s.resetSignal.pending = [] ∧ s.resetSignal.answers = []) ∧
  ∀ (s : State) (r : Request) (rest : List Request), s.pending = r :: rest →
    SameResponse (step (s.resetSignal.submit r)) (step s)

/-- R62, R20: a command produces the kinds its row of the tables lists, and no other. -/
def Obligations.CommandProducesItsKinds : Prop :=
  ∀ (s t : State) (r : Request) (rest : List Request), s.pending = r :: rest → step s = .next t →
    ∃ v, t.answers = s.answers ++ [⟨r, v⟩] ∧ kindOf v ∈ kindsOf r.cmd

/-! ### Refusals -/

/-- R60: the command code 0b11 spells no operation; the request is refused and gets no response. -/
def Obligations.ReservedCommandIsRefused : Prop :=
  (∀ s : State, exec .reservedCmd s = .refused .reservedCommand) ∧
  ∀ (s : State) (r : Request) (rest : List Request), s.pending = r :: rest → r.cmd = 0b11 →
    step s = .refused .reservedCommand

/-- R113: the requests the block refuses, each by its name, and the run is refused for good. -/
def Obligations.OversizedRequestIsRefused : Prop :=
  ∀ (s : State) (r : Request) (rest : List Request), s.pending = r :: rest →
    (r.cmd = 0b11 → RefusedForGood s .reservedCommand) ∧
    (∀ n, s.params.maxDatagramLen = some n → n < r.len → r.cmd = 0b00 ∨ r.cmd = 0b01 →
      RefusedForGood s .datagramTooLong) ∧
    (∀ n, s.params.maxPayloadLen = some n → n < r.len → r.cmd = 0b10 → RefusedForGood s .payloadTooLong)

/-- No request but those of R113 is refused. -/
def Obligations.OnlyListedRequestsAreRefused : Prop :=
  ∀ (s : State) (why : Refusal), step s = .refused why →
    ∃ r rest, s.pending = r :: rest ∧ ¬ Admitted s.params r

/-! ### The classifier -/

/-- R67: CLASSIFY answers a Frame with the operation code, its class and the payload window when the datagram has a whole
header that begins with the identifier, and NotArtNet when not. Below ten bytes nothing is asked of the buffer, since
nothing is read. -/
def Obligations.ClassifyAnswersFrameOrNotArtNet : Prop :=
  ∀ (s : State) (r : Request) (rest : List Request), s.pending = r :: rest → r.len < 10 ∨ r.buf.wf →
    within s.params.maxDatagramLen r.len →
    exec .classify s = .next (answered s r rest
      (if 10 ≤ r.len ∧ r.bytes.take 8 = [0x41, 0x72, 0x74, 0x2D, 0x4E, 0x65, 0x74, 0x00] then
        .frame { opcode := byteAt r.bytes 9 ++ byteAt r.bytes 8
                 opClass := classOf (byteAt r.bytes 9 ++ byteAt r.bytes 8)
                 payloadOff := 10
                 payloadLen := r.len - 10 }
      else .notArtNet))

/-- R69: a datagram shorter than ten bytes, or one whose first eight bytes differ from the identifier, is NotArtNet for the
header row, for CLASSIFY and for PROCESS. -/
def Obligations.BadHeaderIsNotArtNet : Prop :=
  ∀ (s : State) (r : Request) (rest : List Request), s.pending = r :: rest →
    r.len < 10 ∨ (r.buf.wf ∧ r.bytes.take 8 ≠ [0x41, 0x72, 0x74, 0x2D, 0x4E, 0x65, 0x74, 0x00]) →
    exec .artnetId s = .next (answered s r rest .notArtNet) ∧
    (within s.params.maxDatagramLen r.len →
      exec .classify s = .next (answered s r rest .notArtNet) ∧
      exec .process s = .next (answered s r rest .notArtNet))

/-- A header that matches lets the header row pass: it gives no response and changes nothing. That the row on its own
leaves the request in progress is the model's reading (notes/assumptions/2.md). -/
def Obligations.GoodHeaderPassesTheHeaderRow : Prop :=
  ∀ (s : State) (r : Request) (rest : List Request), s.pending = r :: rest → r.buf.wf → 10 ≤ r.len →
    r.bytes.take 8 = [0x41, 0x72, 0x74, 0x2D, 0x4E, 0x65, 0x74, 0x00] →
    exec .artnetId s = .next s

/-- R70: the payload of a Frame is the datagram from offset 10 to its end, read through its window. -/
def Obligations.FramePayloadIsTheRestOfTheDatagram : Prop :=
  ∀ (s t : State) (r : Request) (rest : List Request) (f : Frame), s.pending = r :: rest → r.buf.wf →
    exec .classify s = .next t → t.answers = s.answers ++ [⟨r, .frame f⟩] →
    f.payloadOff = 10 ∧ f.payloadLen = r.len - 10 ∧ framePayload ⟨r, .frame f⟩ = .ok (r.bytes.drop 10)

/-- R71, R73: CLASSIFY's response depends on `L` and on the bytes at offsets 0 to 9 only: no other address is read, so
nothing is asked of the rest of the buffers. -/
def Obligations.ClassifyDependsOnHeaderAlone : Prop :=
  ∀ (s u : State) (r q : Request) (rest more : List Request), s.params = u.params →
    s.pending = r :: rest → u.pending = q :: more → r.len = q.len →
    (∀ a, a < 10 → Memory.read r.buf a = Memory.read q.buf a) → SameResponse (exec .classify s) (exec .classify u)

/-! ### The payload decoder -/

/-- R74, R96, R97: the decoder answers TooShort, LengthMismatch or the Record of the sub-header, to the whole buffer for
the command, and to the buffer from offset 10 on for the Dmx route, whose answers carry the operation code and class. -/
def Obligations.PayloadDecoderAnswers : Prop :=
  ∀ (s : State) (r : Request) (rest : List Request), s.pending = r :: rest → r.buf.wf →
    let p (base k : Nat) : Byte := byteAt r.bytes (base + k)
    let N (base : Nat) : Half := p base 6 ++ p base 7
    let answer (tag : Option Tag) (base M : Nat) : Response :=
      if M < 10 then .decodeError tag .tooShort
      else if M - 8 ≠ (N base).toNat then .decodeError tag .lengthMismatch
      else .record tag
        { protVerMajor := p base 0
          protVerMinor := p base 1
          sequence := p base 2
          physical := p base 3
          subUni := p base 4
          net := p base 5
          universeHi := (p base 4).extractLsb' 4 4
          subUniLo := (p base 4).extractLsb' 0 4
          absoluteUniverse := BitVec.ofNat 16 ((p base 5).toNat * 256 + (p base 4).toNat)
          declaredLength := N base
          dataOff := base + 8
          dataLen := (N base).toNat }
    (within s.params.maxPayloadLen r.len →
      exec .decodeArtdmx s = .next (answered s r rest (answer none 0 r.len))) ∧
    (10 ≤ r.len →
      exec .opDmx s = .next (answered s r rest (answer (some ⟨0x5000, .dmx⟩) 10 (r.len - 10))))

/-- Derived from R75 and R76: when `M < 10` the result is TooShort whatever the bytes say, for the command and for the Dmx
route; the premise asks nothing of the buffer, since no byte is read. That the route run on its own on a buffer shorter than
ten bytes answers so too is DEDUCED (notes/assumptions/17.md). -/
def Obligations.TooShortDecidesAlone : Prop :=
  ∀ (s : State) (r : Request) (rest : List Request), s.pending = r :: rest →
    (within s.params.maxPayloadLen r.len → r.len < 10 →
      exec .decodeArtdmx s = .next (answered s r rest (.decodeError none .tooShort))) ∧
    (r.len - 10 < 10 →
      exec .opDmx s = .next (answered s r rest (.decodeError (some ⟨0x5000, .dmx⟩) .tooShort)))

/-- R85: a payload decodes to a Record exactly when `M >= 10` and `M = 8 + N`; hence every Record declares at least two
bytes, and a payload that declares 0 or 1 is TooShort or LengthMismatch. -/
def Obligations.RecordExactlyWhenLengthMatches : Prop :=
  ∀ (s : State) (r : Request) (rest : List Request), s.pending = r :: rest → r.buf.wf →
    within s.params.maxPayloadLen r.len →
    ((∃ tag d, exec .decodeArtdmx s = .next (answered s r rest (.record tag d))) ↔
      10 ≤ r.len ∧ r.len = 8 + declaredNat r.bytes) ∧
    (∀ tag d, exec .decodeArtdmx s = .next (answered s r rest (.record tag d)) → 2 ≤ d.declaredLength.toNat) ∧
    (declaredNat r.bytes ≤ 1 → exec .decodeArtdmx s = .next (answered s r rest
      (.decodeError none (if r.len < 10 then .tooShort else .lengthMismatch))))

/-- R83, R81: in every Record that any of the three instructions gives, `absoluteUniverse` is `net * 256 + subUni` and the
bit concatenation of the two, and the nibbles are those of SubUni; this holds in every state. -/
def Obligations.RecordDerivationsAreExact : Prop :=
  ∀ (i : Instr) (s t : State) (x : Transaction) (tag : Option Tag) (d : Record),
    i = .decodeArtdmx ∨ i = .opDmx ∨ i = .process → exec i s = .next t →
    t.answers = s.answers ++ [x] → x.response = .record tag d →
    d.absoluteUniverse.toNat = d.net.toNat * 256 + d.subUni.toNat ∧
    d.absoluteUniverse = d.net ++ d.subUni ∧ d.universeHi ++ d.subUniLo = d.subUni

/-- R79: the channel data of a Record is the window of the `N` bytes after the sub-header, which are the last `N` bytes of
the buffer, and its length is the declared length. -/
def Obligations.ChannelDataIsTheDeclaredBytes : Prop :=
  ∀ (i : Instr) (s t : State) (r : Request) (rest : List Request) (tag : Option Tag) (d : Record),
    s.pending = r :: rest → r.buf.wf → i = .decodeArtdmx ∨ i = .opDmx ∨ i = .process →
    exec i s = .next t → t.answers = s.answers ++ [⟨r, .record tag d⟩] →
    d.dataOff = (if i = .decodeArtdmx then 8 else 18) ∧
    tag = (if i = .decodeArtdmx then none else some ⟨0x5000, .dmx⟩) ∧
    channelData ⟨r, .record tag d⟩ = .ok (r.bytes.drop d.dataOff) ∧
    d.dataLen = d.declaredLength.toNat ∧ (r.bytes.drop d.dataOff).length = d.declaredLength.toNat

/-! ### PROCESS and its routes -/

/-- R89: PROCESS answers NotArtNet, the acknowledgement, Unrecognized, or the decoder's answer to the payload window. -/
def Obligations.ProcessAnswersByRoute : Prop :=
  ∀ (s : State) (r : Request) (rest : List Request), s.pending = r :: rest → r.buf.wf →
    within s.params.maxDatagramLen r.len →
    exec .process s = .next (answered s r rest (processAnswer r.bytes))

/-- R98: at datagram level, PROCESS gives a Record exactly when the identifier matches, the opcode is 0x5000, `L >= 20` and
`L = 18 + N`; with the identifier and that opcode, `L` from 10 to 19 gives TooShort and any other `L` LengthMismatch. -/
def Obligations.ProcessRecordAtDatagramLevel : Prop :=
  ∀ (s : State) (r : Request) (rest : List Request), s.pending = r :: rest → r.buf.wf →
    within s.params.maxDatagramLen r.len →
    let N := 256 * (byteAt r.bytes 16).toNat + (byteAt r.bytes 17).toNat
    let Dmx := r.bytes.take 10 = [0x41, 0x72, 0x74, 0x2D, 0x4E, 0x65, 0x74, 0x00, 0x00, 0x50]
    ((∃ tag d, exec .process s = .next (answered s r rest (.record tag d))) ↔
      Dmx ∧ 20 ≤ r.len ∧ r.len = 18 + N) ∧
    (Dmx → r.len ≤ 19 →
      exec .process s = .next (answered s r rest (.decodeError (some ⟨0x5000, .dmx⟩) .tooShort))) ∧
    (Dmx → 20 ≤ r.len → r.len ≠ 18 + N →
      exec .process s = .next (answered s r rest (.decodeError (some ⟨0x5000, .dmx⟩) .lengthMismatch)))

/-- R91, R92, R93: the three acknowledging routes, for every buffer, since the payload is not read. -/
def Obligations.AcknowledgingRoutes : Prop :=
  ∀ (s : State) (r : Request) (rest : List Request), s.pending = r :: rest →
    exec .opPoll s = .next (answered s r rest (.acknowledged 0x2000 .poll)) ∧
    exec .opPollReply s = .next (answered s r rest (.acknowledged 0x2100 .pollReply)) ∧
    exec .opSync s = .next (answered s r rest (.acknowledged 0x5200 .sync))

/-- R94: the Unknown route gives the whole 16-bit code, for every code and every buffer. -/
def Obligations.UnknownRouteGivesTheCode : Prop :=
  ∀ (s : State) (r : Request) (rest : List Request) (code : Half), s.pending = r :: rest →
    exec (.opUnknown code) s = .next (answered s r rest (.unrecognized code))

/-- PROCESS on a Dmx frame is CLASSIFY followed by DECODE_ARTDMX of the payload in a buffer of its own, with the data
window moved by ten and the operation code and class added. -/
def Obligations.ProcessIsClassifyThenDecode : Prop :=
  ∀ (s t : State) (r : Request) (rest : List Request) (f : Frame), s.pending = r :: rest → r.buf.wf →
    exec .classify s = .next (answered s r rest (.frame f)) → f.opClass = .dmx →
    exec .decodeArtdmx { s with pending := decodeRequest (r.bytes.drop f.payloadOff) :: rest } = .next t →
    ∃ v, t = answered s (decodeRequest (r.bytes.drop f.payloadOff)) rest v ∧
      exec .process s = .next (answered s r rest (underProcess v))

/-- The DMX request of R65 comes back whole: every field and every channel byte, for every data of 2 to 65535 bytes; data of
fewer than two bytes is TooShort. -/
def Obligations.DmxRequestRoundTrip : Prop :=
  ∀ (s : State) (rest : List Request) (hi lo seq phys subuni net : Byte) (data : List Byte),
    let r := dmxRequest hi lo seq phys subuni net data
    s.pending = r :: rest → within s.params.maxDatagramLen r.len →
    (2 ≤ data.length → data.length ≤ 65535 →
      ∃ d : Record, step s = .next (answered s r rest (.record (some ⟨0x5000, .dmx⟩) d)) ∧
        d.protVerMajor = hi ∧ d.protVerMinor = lo ∧ d.sequence = seq ∧ d.physical = phys ∧ d.subUni = subuni ∧
        d.net = net ∧ d.declaredLength.toNat = data.length ∧
        channelData ⟨r, .record (some ⟨0x5000, .dmx⟩) d⟩ = .ok data) ∧
    (data.length < 2 → step s = .next (answered s r rest (.decodeError (some ⟨0x5000, .dmx⟩) .tooShort)))

/-! ### Frames -/

/-- What the answering instructions leave unchanged: PROCESS, CLASSIFY, DECODE_ARTDMX and the five routes. -/
def Obligations.AnsweringInstructionsFrame : Prop :=
  AnswerFrame .process ∧ AnswerFrame .classify ∧ AnswerFrame .decodeArtdmx ∧ AnswerFrame .opPoll ∧
  AnswerFrame .opPollReply ∧ AnswerFrame .opDmx ∧ AnswerFrame .opSync ∧ ∀ code, AnswerFrame (.opUnknown code)

/-- What the header row leaves unchanged: everything when it passes; all but the request in progress and its NotArtNet
response when it fails; and every byte of every buffer. That a passed row leaves the same state, with the request still in
progress, is the model's choice (DESIGN CHOICE, notes/assumptions/2.md). -/
def Obligations.HeaderRowFrame : Prop :=
  ∀ s t : State, exec .artnetId s = .next t →
    (t = s ∨ ∃ r rest, s.pending = r :: rest ∧ t = answered s r rest .notArtNet) ∧
    SameBytes s t

/-! ### The response at the host's side -/

/-- Derived from R62, R63 and R64, which give the numeric codes, each read back to its name, and from
93_implementation_defined.md U10, by which a model that reads a code never produced faults. -/
def Obligations.ResponseCodesReadBack : Prop :=
  (∀ k : RespKind, kindOfCode (kindCode k) = .ok k) ∧
  kindOfCode 6 = .error .unusedCode ∧ kindOfCode 7 = .error .unusedCode ∧
  kindCode .notArtNet = 0 ∧ kindCode .frame = 1 ∧ kindCode .acknowledged = 2 ∧ kindCode .unrecognized = 3 ∧
  kindCode .record = 4 ∧ kindCode .decodeError = 5 ∧
  (∀ c : Half, classOfCode (classCode (demux c)) c = .ok (demux c)) ∧
  (∀ c : Half, classOfCode 5 c = .error .unusedCode ∧ classOfCode 6 c = .error .unusedCode ∧
    classOfCode 7 c = .error .unusedCode) ∧
  (∀ c : Half, classCode (.unknown c) = 0) ∧ classCode .poll = 1 ∧ classCode .pollReply = 2 ∧
  classCode .dmx = 3 ∧ classCode .sync = 4 ∧
  errOfCode 1 = .ok .tooShort ∧ errOfCode 2 = .ok .lengthMismatch ∧ errCode .tooShort = 1 ∧
  errCode .lengthMismatch = 2 ∧ errOfCode 0 = .error .unusedCode ∧ errOfCode 3 = .error .unusedCode

/-- Derived from R20, which lists the fields, and R21: a field that a response's kind does not list holds no value, and
reading it faults; a listed field has one. That Unrecognized lists `opClass` is DEDUCED from R20
(notes/assumptions/15.md). -/
def Obligations.UnlistedFieldFaults : Prop :=
  ∀ (v : Response) (x : RespField),
    (x ∉ fieldsOf v → readField v x = .error .unlistedField) ∧ (x ∈ fieldsOf v → ∃ n, readField v x = .ok n)

/-- The host's moves of R25: a submitted request is the youngest, and the host takes the oldest response; neither move
changes anything else. That several requests and responses may stand at once, and that the oldest response is the one
taken, is DEDUCED from R25 and R112 (notes/assumptions/4.md). -/
def Obligations.HostMoves : Prop :=
  (∀ (s : State) (r : Request), (s.submit r).params = s.params ∧ (s.submit r).pending = s.pending ++ [r] ∧
    (s.submit r).answers = s.answers) ∧
  (∀ (s : State) (x : Transaction) (more : List Transaction), s.answers = x :: more →
    s.take = some (x, { s with answers := more })) ∧
  ∀ s : State, s.answers = [] → s.take = none
end

