-- ==== Sys2Proof/Laws/Decode.lean ====
section
/-!
SUPPORT. What the decoder's functions can give, said once.
-/

namespace Sys2Proof

/-- Everything that DEMUX can give. -/
theorem demux_cases (c : Half) :
    (c = 0x2000 ∧ demux c = .poll) ∨ (c = 0x2100 ∧ demux c = .pollReply) ∨ (c = 0x5000 ∧ demux c = .dmx) ∨
    (c = 0x5200 ∧ demux c = .sync) ∨
    ((c ≠ 0x2000 ∧ c ≠ 0x2100 ∧ c ≠ 0x5000 ∧ c ≠ 0x5200) ∧ demux c = .unknown c) := by
  by_cases h1 : c = 0x2000
  · exact .inl ⟨h1, h1 ▸ rfl⟩
  by_cases h2 : c = 0x2100
  · exact .inr (.inl ⟨h2, h2 ▸ rfl⟩)
  by_cases h3 : c = 0x5000
  · exact .inr (.inr (.inl ⟨h3, h3 ▸ rfl⟩))
  by_cases h4 : c = 0x5200
  · exact .inr (.inr (.inr (.inl ⟨h4, h4 ▸ rfl⟩)))
  exact .inr (.inr (.inr (.inr ⟨⟨h1, h2, h3, h4⟩,
    (if_neg h1).trans ((if_neg h2).trans ((if_neg h3).trans (if_neg h4)))⟩)))

/-- Everything that the decoding of an operation code can give. -/
theorem decodeOpcode_cases (c : Half) :
    (c = 0x2000 ∧ decodeOpcode c = .opPoll) ∨ (c = 0x2100 ∧ decodeOpcode c = .opPollReply) ∨
    (c = 0x5000 ∧ decodeOpcode c = .opDmx) ∨ (c = 0x5200 ∧ decodeOpcode c = .opSync) ∨
    ((c ≠ 0x2000 ∧ c ≠ 0x2100 ∧ c ≠ 0x5000 ∧ c ≠ 0x5200) ∧ decodeOpcode c = .opUnknown c) := by
  unfold decodeOpcode
  rcases demux_cases c with ⟨e, h⟩ | ⟨e, h⟩ | ⟨e, h⟩ | ⟨e, h⟩ | ⟨e, h⟩ <;> simp only [h]
  · exact .inl ⟨e, trivial⟩
  · exact .inr (.inl ⟨e, trivial⟩)
  · exact .inr (.inr (.inl ⟨e, trivial⟩))
  · exact .inr (.inr (.inr (.inl ⟨e, trivial⟩)))
  · exact .inr (.inr (.inr (.inr ⟨e, trivial⟩)))

/-- The wire bytes of an assembled operation code are the two bytes it was assembled from. -/
theorem opBytes_le16 (lo hi : Byte) : opBytes (le16 lo hi) = [lo, hi] := by
  have hl := lo.isLt
  have hh := hi.isLt
  have h1 : BitVec.extractLsb' 0 8 (hi ++ lo) = lo := by
    apply BitVec.eq_of_toNat_eq
    simp only [BitVec.extractLsb'_toNat, BitVec.toNat_append]
    rw [← Nat.shiftLeft_add_eq_or_of_lt hl]
    omega
  have h2 : BitVec.extractLsb' 8 8 (hi ++ lo) = hi := by
    apply BitVec.eq_of_toNat_eq
    simp only [BitVec.extractLsb'_toNat, BitVec.toNat_append, Nat.shiftRight_eq_div_pow]
    rw [← Nat.shiftLeft_add_eq_or_of_lt hl]
    omega
  simp [opBytes, le16, h1, h2]

end Sys2Proof
end

