-- ==== Sys2Proof/Laws/Memory.lean ====
section
/-!
SUPPORT. Buffers: the canonical form, what a read gives in it, and that every operation that makes a buffer gives one in
it. No operation of the block writes a buffer (R30).
-/

namespace Sys2Proof.Machine

theorem Memory.read_ofBytesFrom (bs : List Byte) (k j : Nat) :
    (Memory.ofBytesFrom k bs).read (k + j) = bs[j]? := by
  induction bs generalizing k j with
  | nil => simp [Memory.ofBytesFrom, Memory.read]
  | cons b bs ih =>
    cases j with
    | zero => simp [Memory.ofBytesFrom, Memory.read]
    | succ j =>
      have h := ih (k + 1) j
      rw [show k + (j + 1) = k + 1 + j by omega]
      simpa [Memory.ofBytesFrom, Memory.read, show ¬ k = k + 1 + j by omega] using h

/-- A delivered buffer holds its k-th byte at address k and nothing beyond its last byte. -/
theorem Memory.read_ofBytes (bs : List Byte) (a : Nat) : (Memory.ofBytes bs).read a = bs[a]? := by
  simpa [Memory.ofBytes] using Memory.read_ofBytesFrom bs 0 a

@[simp] theorem Memory.length_ofBytesFrom (bs : List Byte) (k : Nat) :
    (Memory.ofBytesFrom k bs).length = bs.length := by
  induction bs generalizing k with
  | nil => rfl
  | cons b bs ih => simp [Memory.ofBytesFrom, ih]

@[simp] theorem Memory.snd_ofBytesFrom (bs : List Byte) (k : Nat) :
    (Memory.ofBytesFrom k bs).map Prod.snd = bs := by
  induction bs generalizing k with
  | nil => rfl
  | cons b bs ih => simp [Memory.ofBytesFrom, ih]

theorem Memory.fst_ofBytesFrom (bs : List Byte) (k : Nat) :
    (Memory.ofBytesFrom k bs).map Prod.fst = List.range' k bs.length := by
  induction bs generalizing k with
  | nil => rfl
  | cons b bs ih => simp [Memory.ofBytesFrom, ih, List.range'_succ]

/-- Delivering bytes gives a buffer in the canonical form. -/
@[simp] theorem Memory.wf_ofBytes (bs : List Byte) : (Memory.ofBytes bs).wf := by
  simp [Memory.wf, Memory.ofBytes, Memory.fst_ofBytesFrom, List.range_eq_range']

theorem Memory.eq_ofBytesFrom (m : Memory) (k : Nat) (h : m.map Prod.fst = List.range' k m.length) :
    m = Memory.ofBytesFrom k (m.map Prod.snd) := by
  induction m generalizing k with
  | nil => rfl
  | cons c m ih =>
    obtain ⟨a, b⟩ := c
    simp only [List.map_cons, List.length_cons, List.range'_succ, List.cons.injEq] at h
    simp only [List.map_cons, Memory.ofBytesFrom, List.cons.injEq, Prod.mk.injEq, and_true]
    exact ⟨h.1, ih (k + 1) h.2⟩

/-- The canonical form is the form in which a host delivers bytes. -/
theorem Memory.wf_iff_ofBytes (m : Memory) : m.wf ↔ m = Memory.ofBytes (m.map Prod.snd) := by
  constructor
  · intro h
    exact Memory.eq_ofBytesFrom m 0 (by rw [← List.range_eq_range']; exact h)
  · intro h
    rw [h]
    exact Memory.wf_ofBytes _

/-- In the canonical form the addresses rise strictly. -/
theorem Memory.wf_rising {m : Memory} (h : m.wf) : (m.map Prod.fst).Pairwise (· < ·) := by
  rw [h]
  exact List.pairwise_lt_range

/-- Equal lengths and equal reads are equal data. -/
theorem Memory.wf_ext {m n : Memory} (hm : m.wf) (hn : n.wf) (h : ∀ a, m.read a = n.read a) : m = n := by
  rw [Memory.wf_iff_ofBytes] at hm hn
  rw [hm, hn]
  congr 1
  apply List.ext_getElem?
  intro a
  have := h a
  rwa [hm, hn, Memory.read_ofBytes, Memory.read_ofBytes] at this

@[simp] theorem processRequest_wf (bs : List Byte) : (processRequest bs).buf.wf := Memory.wf_ofBytes bs
@[simp] theorem classifyRequest_wf (bs : List Byte) : (classifyRequest bs).buf.wf := Memory.wf_ofBytes bs
@[simp] theorem decodeRequest_wf (bs : List Byte) : (decodeRequest bs).buf.wf := Memory.wf_ofBytes bs

/-- The request of a table row's word has a buffer in the canonical form. -/
theorem wordRequest_wf (nbits w : Nat) : (wordRequest nbits w).buf.wf := by
  unfold wordRequest
  split <;> exact Memory.wf_ofBytes _

@[simp] theorem processRequest_bytes (bs : List Byte) : (processRequest bs).bytes = bs := by
  simp [processRequest, Request.bytes, Memory.ofBytes]
@[simp] theorem classifyRequest_bytes (bs : List Byte) : (classifyRequest bs).bytes = bs := by
  simp [classifyRequest, Request.bytes, Memory.ofBytes]
@[simp] theorem decodeRequest_bytes (bs : List Byte) : (decodeRequest bs).bytes = bs := by
  simp [decodeRequest, Request.bytes, Memory.ofBytes]

@[simp] theorem Request.bytes_length (r : Request) : r.bytes.length = r.len := by
  simp [Request.bytes, Request.len]

end Sys2Proof.Machine
end

