-- ==== Sys2Proof/Laws/Ops.lean ====
section
/-!
SUPPORT. What each shared operation of Machine/Ops.lean can do, said once.
-/

namespace Sys2Proof.Machine

open Sys2Proof.Safety (byteAt within buffers)

theorem byteAt_getElem {bs : List Byte} {a : Nat} (h : a < bs.length) : byteAt bs a = bs[a] := by
  simp only [byteAt, List.getD_eq_getElem?_getD, List.getElem?_eq_getElem h, Option.getD_some]

/-- A read below the length of a canonical buffer gives the byte at that offset. -/
theorem memRead_wf {r : Request} (hwf : r.buf.wf) {a : Nat} (ha : a < r.len) :
    memRead r a = .ok (byteAt r.bytes a) := by
  have hlen : a < r.bytes.length := by simpa using ha
  have hread : r.buf.read a = r.bytes[a]? := by
    conv_lhs => rw [(Memory.wf_iff_ofBytes r.buf).mp hwf]
    rw [Memory.read_ofBytes]
    rfl
  simp only [memRead, ha, if_true, hread, List.getElem?_eq_getElem hlen]
  simp [byteAt_getElem hlen]

/-- A read at or beyond the length faults. -/
theorem memRead_beyond (r : Request) {a : Nat} (ha : r.len ≤ a) : memRead r a = .error (.noByte a) := by
  simp [memRead, Nat.not_lt.mpr ha]

/-- A window inside a canonical buffer reads as its bytes. -/
theorem windowBytes_wf {r : Request} (hwf : r.buf.wf) (n off : Nat) (h : off + n ≤ r.len) :
    windowBytes r off n = .ok ((r.bytes.drop off).take n) := by
  induction n generalizing off with
  | zero => simp [windowBytes]
  | succ n ih =>
    have hoff : off < r.bytes.length := by simp; omega
    simp only [windowBytes, memRead_wf hwf (show off < r.len by omega), ih (off + 1) (by omega), bind, Except.bind]
    rw [List.drop_eq_getElem_cons hoff, List.take_succ_cons]
    rw [byteAt_getElem hoff]

theorem exceeds_false_iff (cap : Option Nat) (len : Nat) : exceeds cap len = false ↔ within cap len := by
  cases cap <;> simp [exceeds, within]

theorem exceeds_true_iff (cap : Option Nat) (len : Nat) : exceeds cap len = true ↔ ∃ n, cap = some n ∧ n < len := by
  cases cap <;> simp [exceeds]

/-- Everything that answering can do when it gives a next state. -/
theorem answerWith_cases {s t : State} {f : Request → Except Fault Response} (h : answerWith s f = .next t) :
    ∃ r rest v, s.pending = r :: rest ∧ f r = .ok v ∧
      t = { s with pending := rest, answers := s.answers ++ [⟨r, v⟩] } := by
  unfold answerWith at h
  split at h
  · cases h
  · rename_i r rest hp
    split at h
    · cases h
    · rename_i v hv
      cases h
      exact ⟨r, rest, v, hp, hv, rfl⟩

/-- Answering a request in progress whose response is computed. -/
theorem answerWith_ok {s : State} {r : Request} {rest : List Request} {f : Request → Except Fault Response}
    {v : Response} (hp : s.pending = r :: rest) (hv : f r = .ok v) :
    answerWith s f = .next { s with pending := rest, answers := s.answers ++ [⟨r, v⟩] } := by
  simp [answerWith, hp, hv]

/-- Everything that admission can do when it gives a next state. -/
theorem checkCapacity_cases {s t : State} {cap : Option Nat} {why : Refusal} {k : State → Result}
    (h : checkCapacity s cap why k = .next t) : k s = .next t := by
  unfold checkCapacity at h
  split at h
  · cases h
  · split at h
    · cases h
    · exact h

/-- An admitted request goes on. -/
theorem checkCapacity_within {s : State} {r : Request} {rest : List Request} {cap : Option Nat} {why : Refusal}
    {k : State → Result} (hp : s.pending = r :: rest) (hw : within cap r.len) : checkCapacity s cap why k = k s := by
  simp [checkCapacity, hp, (exceeds_false_iff cap r.len).mpr hw]

/-- A request longer than the capacity is refused. -/
theorem checkCapacity_exceeds {s : State} {r : Request} {rest : List Request} {n : Nat} {why : Refusal}
    {k : State → Result} (hp : s.pending = r :: rest) (hw : n < r.len) :
    checkCapacity s (some n) why k = .refused why := by
  simp [checkCapacity, hp, exceeds, hw]

/-- The step on a request in progress is the meaning of its command. -/
theorem step_cons {s : State} {r : Request} {rest : List Request} (hp : s.pending = r :: rest) :
    step s = exec (decodeCommand r.cmd) s := by
  simp [step, fetch, hp]

/-- With no request in progress nothing changes. -/
theorem step_nil {s : State} (hp : s.pending = []) : step s = .next s := by
  simp [step, fetch, hp]

/-- Reset holds no buffer. -/
@[simp] theorem buffers_reset : buffers State.reset = [] := rfl

/-- Submitting a request in the canonical form keeps every buffer in it. -/
theorem submit_wf {s : State} {r : Request} (hs : ∀ m ∈ buffers s, m.wf) (hr : r.buf.wf) :
    ∀ m ∈ buffers (s.submit r), m.wf := by
  intro m hm
  have : buffers (s.submit r) = buffers s ++ [r.buf] := by simp [buffers, State.submit]
  rw [this, List.mem_append, List.mem_singleton] at hm
  rcases hm with hm | rfl
  · exact hs m hm
  · exact hr

/-- Placing a table row's word keeps every buffer in the canonical form. -/
theorem withFetchWord_wf {s : State} (nbits w : Nat) (hs : ∀ r ∈ s.pending, r.buf.wf) :
    ∀ r ∈ (s.withFetchWord nbits w).pending, r.buf.wf := by
  intro r hr
  rcases List.mem_cons.mp hr with rfl | hr
  · exact wordRequest_wf nbits w
  · exact hs r hr

end Sys2Proof.Machine
end

