-- ==== Sys2Proof/Laws/Operands.lean ====
section
/-!
SUPPORT. What each operand form of Machine/Operands.lean reads in a canonical buffer.
-/

namespace Sys2Proof.Machine

open Sys2Proof.Safety

theorem idMatches_wf {r : Request} (hwf : r.buf.wf) (ids : List Byte) (a : Nat) (h : a + ids.length ≤ r.len) :
    idMatches r a ids = .ok (decide ((r.bytes.drop a).take ids.length = ids)) := by
  induction ids generalizing a with
  | nil => simp [idMatches]
  | cons b ids ih =>
    simp only [List.length_cons] at h
    have ha : a < r.bytes.length := by simp; omega
    simp only [idMatches, memRead_wf hwf (show a < r.len by omega), bind, Except.bind,
      ih (a + 1) (by omega), List.length_cons]
    have hsplit : (r.bytes.drop a).take (ids.length + 1) = r.bytes[a] :: (r.bytes.drop (a + 1)).take ids.length := by
      rw [List.drop_eq_getElem_cons ha, List.take_succ_cons]
    simp only [hsplit, byteAt_getElem ha, List.cons.injEq]
    by_cases he : r.bytes[a] = b
    · simp [he]
    · simp [he]

/-- The header check decides whether the datagram begins with a whole Art-Net header. -/
theorem headerMatches_wf {r : Request} (hwf : r.buf.wf) : headerMatches r = .ok (hasHeader r.bytes) := by
  unfold headerMatches
  by_cases h : r.len < 10
  · simp [hdrLen, hasHeader, h, show ¬ 10 ≤ r.len by omega]
  · have h8 := idMatches_wf hwf artnetIdBytes 0 (by simp [artnetIdBytes]; omega)
    simp only [hdrLen, h, if_false, h8]
    have h10 : 10 ≤ r.len := by omega
    simp only [List.drop_zero, hasHeader, Request.bytes_length, h10, decide_true, Bool.true_and]
    rfl

theorem hasHeader_length {bs : List Byte} (h : hasHeader bs = true) : 10 ≤ bs.length := by
  simp only [hasHeader, Bool.and_eq_true, decide_eq_true_eq] at h
  exact h.1

theorem le16_eq (lo hi : Byte) : le16 lo hi = BitVec.ofNat 16 (lo.toNat + 256 * hi.toNat) := by
  apply BitVec.eq_of_toNat_eq
  simp only [le16, BitVec.toNat_append, BitVec.toNat_ofNat]
  have h1 := lo.isLt
  have h2 := hi.isLt
  rw [← Nat.shiftLeft_add_eq_or_of_lt h1]
  omega

theorem be16_toNat (hi lo : Byte) : (be16 hi lo).toNat = 256 * hi.toNat + lo.toNat := by
  simp only [be16, BitVec.toNat_append]
  have h1 := lo.isLt
  rw [← Nat.shiftLeft_add_eq_or_of_lt h1]
  omega

theorem readOpcode_wf {r : Request} (hwf : r.buf.wf) (h : 10 ≤ r.len) :
    readOpcode r = .ok (opcodeIn r.bytes) := by
  simp only [readOpcode, opcodeOff, memRead_wf hwf (show 8 < r.len by omega),
    memRead_wf hwf (show 9 < r.len by omega), bind, Except.bind]
  simp [opcodeIn, opcodeNat, le16_eq]

theorem universeHiOf_eq (b : Byte) : universeHiOf b = BitVec.ofNat 4 (b.toNat / 16) := by
  apply BitVec.eq_of_toNat_eq
  simp [universeHiOf, Nat.shiftRight_eq_div_pow]

theorem subUniLoOf_eq (b : Byte) : subUniLoOf b = BitVec.ofNat 4 (b.toNat % 16) := by
  apply BitVec.eq_of_toNat_eq
  simp [subUniLoOf]

theorem byteAt_drop (bs : List Byte) (base k : Nat) : byteAt (bs.drop base) k = byteAt bs (base + k) := by
  simp [byteAt, List.getD_eq_getElem?_getD]

/-- The sub-header of a payload of at least eight bytes. -/
theorem readSubHeader_wf {r : Request} (hwf : r.buf.wf) {base : Nat} (h : base + 8 ≤ r.len) :
    readSubHeader r base = .ok
      { protVerHi := byteAt (r.bytes.drop base) 0, protVerLo := byteAt (r.bytes.drop base) 1
        sequence := byteAt (r.bytes.drop base) 2, physical := byteAt (r.bytes.drop base) 3
        subUni := byteAt (r.bytes.drop base) 4, net := byteAt (r.bytes.drop base) 5
        lengthHi := byteAt (r.bytes.drop base) 6, lengthLo := byteAt (r.bytes.drop base) 7 } := by
  have rd (k : Nat) (hk : k < 8) : memRead r (base + k) = .ok (byteAt (r.bytes.drop base) k) := by
    rw [byteAt_drop]; exact memRead_wf hwf (by omega)
  simp only [readSubHeader, rd 0 (by omega), rd 1 (by omega), rd 2 (by omega), rd 3 (by omega), rd 4 (by omega),
    rd 5 (by omega), rd 6 (by omega), rd 7 (by omega), bind, Except.bind]

/-- The class the meanings compute is the class of R56. -/
theorem demux_eq (opcode : Half) : demux opcode = classOf opcode := rfl

end Sys2Proof.Machine
end

