-- ==== Sys2Proof/Laws/Meanings.lean ====
section
/-!
SUPPORT. What the classifier and the payload decoder answer on a canonical buffer, and what each meaning can do when it
gives a next state.
-/

namespace Sys2Proof.Machine

open Sys2Proof.Safety

/-- The classifier's one spec. -/
theorem classifyFrame_wf {r : Request} (hwf : r.buf.wf) :
    classifyFrame r = .ok (if hasHeader r.bytes then
      some { opcode := opcodeIn r.bytes, opClass := classOf (opcodeIn r.bytes), payloadOff := 10,
             payloadLen := r.len - 10 } else none) := by
  simp only [classifyFrame, headerMatches_wf hwf, bind, Except.bind]
  by_cases h : hasHeader r.bytes = true
  · have h10 : 10 ≤ r.len := by simpa using hasHeader_length h
    simp [h, readOpcode_wf hwf h10, demux_eq, hdrLen, payloadOff]
  · simp [h]

/-- The payload decoder's one spec: its answer to the rest of the buffer from `base` on. -/
theorem decodePayload_wf {r : Request} (hwf : r.buf.wf) {base : Nat} (hb : base ≤ r.len) (tag : Option Tag) :
    decodePayload r base (r.len - base) tag = .ok (payloadAnswer tag base (r.bytes.drop base)) := by
  unfold decodePayload payloadAnswer
  by_cases h : r.len - base < 10
  · simp [minDmxPayload, h]
  · have hN := be16_toNat (byteAt (r.bytes.drop base) 6) (byteAt (r.bytes.drop base) 7)
    have hB : be16 (byteAt (r.bytes.drop base) 6) (byteAt (r.bytes.drop base) 7)
        = BitVec.ofNat 16 (declaredNat (r.bytes.drop base)) := by
      rw [declaredNat, ← hN, BitVec.ofNat_toNat, BitVec.setWidth_eq]
    simp only [minDmxPayload, h, if_false, readSubHeader_wf hwf (show base + 8 ≤ r.len by omega),
      bind, Except.bind, declaredLengthOf, subhdrLen, hN, List.length_drop, Request.bytes_length]
    by_cases hm : r.len - base - 8 = 256 * (byteAt (r.bytes.drop base) 6).toNat + (byteAt (r.bytes.drop base) 7).toNat
    · have hm' : r.len - base = 8 + declaredNat (r.bytes.drop base) := by simp only [declaredNat]; omega
      rw [if_neg (not_not.mpr hm), if_neg (not_not.mpr hm')]
      have hT : (BitVec.ofNat 16 (declaredNat (r.bytes.drop base))).toNat = declaredNat (r.bytes.drop base) := by
        rw [← hB, hN, declaredNat]
      simp only [recordOf, recordIn, declaredLengthOf, universeHiOf_eq, subUniLoOf_eq, absoluteUniverseOf,
        subhdrLen, hB, hT]
    · have hm' : ¬ r.len - base = 8 + declaredNat (r.bytes.drop base) := by simp only [declaredNat]; omega
      rw [if_pos hm, if_pos hm']

/-- Every route answers the request in progress. -/
theorem routeOf_cases {c : OpClass} {s t : State} (h : routeOf c s = .next t) :
    ∃ r rest v, s.pending = r :: rest ∧ t = { s with pending := rest, answers := s.answers ++ [⟨r, v⟩] } := by
  have key : ∀ f, answerWith s f = .next t →
      ∃ r rest v, s.pending = r :: rest ∧ t = { s with pending := rest, answers := s.answers ++ [⟨r, v⟩] } := by
    intro f hf
    obtain ⟨r, rest, v, hp, -, ht⟩ := answerWith_cases hf
    exact ⟨r, rest, v, hp, ht⟩
  cases c <;> simp only [routeOf, execOpPoll, execOpPollReply, execOpDmx, execOpSync, execOpUnknown] at h <;>
    exact key _ h

/-- PROCESS, once admitted, either stops or answers the request in progress. -/
theorem processAdmitted_cases {s t : State} (h : processAdmitted s = .next t) :
    ∃ r rest v, s.pending = r :: rest ∧ t = { s with pending := rest, answers := s.answers ++ [⟨r, v⟩] } := by
  unfold processAdmitted at h
  split at h
  · cases h
  · split at h
    · cases h
    · obtain ⟨r, rest, v, hp, -, ht⟩ := answerWith_cases h
      exact ⟨r, rest, v, hp, ht⟩
    · exact routeOf_cases h

end Sys2Proof.Machine
end

