-- ==== Sys2Proof/Laws/PerInstr.lean ====
section
/-!
SUPPORT. The statements about every instruction as syntax, one lemma per constructor.
-/

namespace Sys2Proof.Laws.DecodeEncode

/-- The encoded row, followed by anything that gives the format its bytes, decodes to the instruction and leaves what
followed. -/
def Statement (i : Instr) : Prop :=
  i.wellFormed = true → ∀ rest : List Byte, (formatOf i).len ≤ (encode i ++ rest).length →
    decode (formatOf i) (encode i ++ rest) = .ok (i, rest)

theorem process : Statement .process := fun _ _ _ => rfl
theorem classify : Statement .classify := fun _ _ _ => rfl
theorem decodeArtdmx : Statement .decodeArtdmx := fun _ _ _ => rfl
theorem reservedCmd : Statement .reservedCmd := fun _ _ _ => rfl

theorem artnetId : Statement .artnetId := by
  intro _ rest h
  simp only [formatOf, encode] at h ⊢
  simp only [decode, if_neg (Nat.not_lt.mpr h)]
  rfl

theorem le16_opBytes (code : Half) : le16 (code.extractLsb' 0 8) (code.extractLsb' 8 8) = code := by
  unfold le16
  ext i hi
  simp only [BitVec.getElem_append, BitVec.getElem_extractLsb']
  split
  · rename_i h
    simp [BitVec.getLsbD_eq_getElem hi]
  · rename_i h
    rw [show 8 + (i - 8) = i by omega]
    simp [BitVec.getLsbD_eq_getElem hi]

theorem opCode16 (code : Half) (rest : List Byte) :
    decode .opCode16 (opBytes code ++ rest) = .ok (decodeOpcode code, rest) := by
  simp [decode, opBytes, le16_opBytes]

theorem opPoll : Statement .opPoll := fun _ rest _ => opCode16 opPollCode rest
theorem opPollReply : Statement .opPollReply := fun _ rest _ => opCode16 opPollReplyCode rest
theorem opDmx : Statement .opDmx := fun _ rest _ => opCode16 opDmxCode rest
theorem opSync : Statement .opSync := fun _ rest _ => opCode16 opSyncCode rest

theorem opUnknown (code : Half) : Statement (.opUnknown code) := by
  intro hw rest _
  have h := opCode16 code rest
  simp only [Instr.wellFormed, Bool.and_eq_true, bne_iff_ne, ne_eq] at hw
  obtain ⟨⟨⟨h1, h2⟩, h3⟩, h4⟩ := hw
  simpa [formatOf, encode, decodeOpcode, demux, h1, h2, h3, h4] using h

end Sys2Proof.Laws.DecodeEncode
end

