-- ==== Sys2Proof/Laws/State.lean ====
section
/-!
SUPPORT. The fields of State after each update.
-/

namespace Sys2Proof.Machine

variable (s : State) (r : Request) (nbits w : Nat)

@[simp] theorem State.submit_params : (s.submit r).params = s.params := rfl
@[simp] theorem State.submit_pending : (s.submit r).pending = s.pending ++ [r] := rfl
@[simp] theorem State.submit_answers : (s.submit r).answers = s.answers := rfl

@[simp] theorem State.resetSignal_params : s.resetSignal.params = s.params := rfl
@[simp] theorem State.resetSignal_pending : s.resetSignal.pending = [] := rfl
@[simp] theorem State.resetSignal_answers : s.resetSignal.answers = [] := rfl

@[simp] theorem State.withFetchWord_params : (s.withFetchWord nbits w).params = s.params := rfl
@[simp] theorem State.withFetchWord_pending :
    (s.withFetchWord nbits w).pending = wordRequest nbits w :: s.pending := rfl
@[simp] theorem State.withFetchWord_answers : (s.withFetchWord nbits w).answers = s.answers := rfl

/-- Everything that taking a response can do. -/
theorem State.take_cases {s : State} {t : Transaction} {s' : State} (h : s.take = some (t, s')) :
    s.answers = t :: s'.answers ∧ s'.params = s.params ∧ s'.pending = s.pending := by
  unfold State.take at h
  split at h
  · cases h
  · rename_i heq; cases h; exact ⟨heq, rfl, rfl⟩

end Sys2Proof.Machine
end

