-- ==== Sys2Proof/Tests/Slice0.lean ====
section
/-!
SUPPORT. Tests and witnesses. Expected values are the spec's own: the tables of 30_encoding.md and the vectors of
95_test_vectors.md, named by their ids.
-/

namespace Sys2Proof.Tests

open Sys2Proof.Machine Sys2Proof.Safety

/-! ### Well-formedness: each check refuses an ill-formed term (R57) -/

theorem test_wf_unknown_refuses_poll : (Instr.opUnknown 0x2000).wellFormed = false := by decide
theorem test_wf_unknown_refuses_pollReply : (Instr.opUnknown 0x2100).wellFormed = false := by decide
theorem test_wf_unknown_refuses_dmx : (Instr.opUnknown 0x5000).wellFormed = false := by decide
theorem test_wf_unknown_refuses_sync : (Instr.opUnknown 0x5200).wellFormed = false := by decide
theorem test_wf_unknown_accepts_swapped_dmx : (Instr.opUnknown 0x0050).wellFormed = true := by decide

/-- A buffer with a hole at address 1 is not in the canonical form; a read in the hole faults. -/
theorem test_wf_memory_refuses_hole : ¬ Memory.wf [(0, 0x41), (2, 0x72)] := by decide
theorem test_wf_memory_refuses_wrong_order : ¬ Memory.wf [(1, 0x72), (0, 0x41)] := by decide

/-! ### Decoding: each row's word, from R49, R56 and R59 -/

theorem test_decode_process : decodeTableWord 8 0b00 = some .process := by decide
theorem test_decode_classify : decodeTableWord 8 0b01 = some .classify := by decide
theorem test_decode_decodeArtdmx : decodeTableWord 8 0b10 = some .decodeArtdmx := by decide
theorem test_decode_reservedCmd : decodeTableWord 8 0b11 = some .reservedCmd := by decide

/-- The identifier `41 72 74 2D 4E 65 74 00` (R49), its first byte in bits 7:0, then the bytes 00 50. -/
theorem test_decode_artnetId : decodeTableWord 80 0x50000074654E2D747241 = some .artnetId := by decide

/-- 95_test_vectors.md C5: `!` in place of the zero byte. -/
theorem test_decode_artnetId_wrong : decodeTableWord 80 0x50002174654E2D747241 = none := by decide

theorem test_decode_opPoll : decodeTableWord 16 0x2000 = some .opPoll := by decide
theorem test_decode_opPollReply : decodeTableWord 16 0x2100 = some .opPollReply := by decide
theorem test_decode_opDmx : decodeTableWord 16 0x5000 = some .opDmx := by decide
theorem test_decode_opSync : decodeTableWord 16 0x5200 = some .opSync := by decide

/-- R58: wire bytes 0x50, 0x00. -/
theorem test_decode_opUnknown : decodeTableWord 16 0x0050 = some (.opUnknown 0x0050) := by decide

/-- R56: the wire bytes of ArtDmx are 0x00, 0x50, low byte first. -/
theorem test_encode_opDmx : encode .opDmx = [0x00, 0x50] := by decide

/-! ### Helpers -/

/-- The identifier of R49. -/
def idBytes : List Byte := [0x41, 0x72, 0x74, 0x2D, 0x4E, 0x65, 0x74, 0x00]

/-- Just after reset, with one request submitted. -/
def one (r : Request) : State := State.reset.submit r

/-- An instance of the given capacities with one request pending. -/
def bounded (d m : Nat) (r : Request) : State := { params := ⟨some d, some m⟩, pending := [r], answers := [] }

/-- The newest response of a next state. -/
def lastResponse (x : Result) : Option Response :=
  match x with
  | .next t => t.answers.getLast?.map (·.response)
  | .fault _ => none
  | .refused _ => none

/-- The refusal of a result. -/
def refusalOf (x : Result) : Option Refusal :=
  match x with
  | .next _ => none
  | .fault _ => none
  | .refused w => some w

/-- The fault of a result. -/
def faultOf (x : Result) : Option Fault :=
  match x with
  | .next _ => none
  | .fault f => some f
  | .refused _ => none

/-- The state of a next result. -/
def nextOf (x : Result) : Option State :=
  match x with
  | .next t => some t
  | .fault _ => none
  | .refused _ => none

/-- What a read gives, or nothing where it faults. -/
def valueOf {α : Type} (x : Except Fault α) : Option α :=
  match x with
  | .ok v => some v
  | .error _ => none

/-- The datagram of P9: the shortest that decodes. -/
def p9 : List Byte :=
  idBytes ++ [0x00, 0x50, 0x00, 0x0E, 0x00, 0x00, 0x00, 0x00, 0x00, 0x02, 0xAB, 0xCD]

/-- The payload of S3 and D16. -/
def s3 : List Byte := [0x00, 0x0E, 0x01, 0x00, 0x05, 0x00, 0x00, 0x03, 0x0A, 0x14, 0x1E]

/-- The record of S3 and D16, its data at an offset. -/
def s3Record (off : Nat) : Record :=
  { protVerMajor := 0, protVerMinor := 14, sequence := 1, physical := 0, subUni := 0x05, net := 0
    universeHi := 0, subUniLo := 5, absoluteUniverse := 5, declaredLength := 3, dataOff := off, dataLen := 3 }

/-! ### One step of each instruction -/

/-- P12. -/
theorem test_process_dmx : lastResponse (step (one (processRequest (idBytes ++ [0x00, 0x50] ++ s3)))) =
    some (.record (some ⟨0x5000, .dmx⟩) (s3Record 18)) := by decide

/-- P8: a payload of nine bytes. -/
theorem test_process_too_short :
    lastResponse (step (one (processRequest (p9.take 19)))) =
      some (.decodeError (some ⟨0x5000, .dmx⟩) .tooShort) := by decide

/-- C7. -/
theorem test_classify_poll :
    lastResponse (step (one (classifyRequest (idBytes ++ [0x00, 0x20, 0xAA, 0xBB, 0xCC, 0xDD])))) =
      some (.frame ⟨0x2000, .poll, 10, 4⟩) := by decide

/-- C2: the full identifier, one byte short. -/
theorem test_classify_nine_bytes :
    lastResponse (step (one (classifyRequest (idBytes ++ [0x00])))) = some .notArtNet := by decide

/-- D9: the largest absoluteUniverse. -/
theorem test_decode_largest_universe :
    lastResponse (step (one (decodeRequest [0x00, 0x0E, 0xFF, 0x03, 0xFF, 0xFF, 0x00, 0x02, 0xFF, 0x00]))) =
      some (.record none
        { protVerMajor := 0, protVerMinor := 14, sequence := 255, physical := 3, subUni := 0xFF, net := 0xFF
          universeHi := 15, subUniLo := 15, absoluteUniverse := 65535, declaredLength := 2, dataOff := 8, dataLen := 2 })
      := by decide

/-- D11: the length is big-endian. -/
theorem test_decode_length_big_endian :
    lastResponse (step (one (decodeRequest [0x00, 0x0E, 0x00, 0x00, 0x00, 0x00, 0x02, 0x00, 0x01, 0x02]))) =
      some (.decodeError none .lengthMismatch) := by decide

/-- F1. -/
theorem test_reserved_refused :
    refusalOf (step (one { cmd := 0b11, buf := Memory.ofBytes (idBytes ++ [0x00, 0x20]) })) =
      some .reservedCommand := by decide

/-- C4: a lower-case `a`. -/
theorem test_artnetId_case :
    lastResponse (exec .artnetId (one (processRequest [0x61, 0x72, 0x74, 0x2D, 0x4E, 0x65, 0x74, 0x00, 0x00, 0x50]))) =
      some .notArtNet := by decide

/-- R68: a header that matches gives no NotArtNet. -/
theorem test_artnetId_passes :
    nextOf (exec .artnetId (one (processRequest p9))) = some (one (processRequest p9)) := by decide

/-- P2. -/
theorem test_opPoll : lastResponse (step (one pollRequest)) = some (.acknowledged 0x2000 .poll) := by decide

/-- P4. -/
theorem test_opPollReply :
    lastResponse (step (one pollReplyRequest)) = some (.acknowledged 0x2100 .pollReply) := by decide

/-- P5: two bytes of payload, not read. -/
theorem test_opSync :
    lastResponse (step (one (processRequest (idBytes ++ [0x00, 0x52, 0x00, 0x00])))) =
      some (.acknowledged 0x5200 .sync) := by decide

/-- P10: N = 0. -/
theorem test_opDmx_mismatch :
    lastResponse (step (one (processRequest (idBytes ++ [0x00, 0x50, 0x00, 0x0E, 0, 0, 0, 0, 0, 0, 0xAB, 0xCD])))) =
      some (.decodeError (some ⟨0x5000, .dmx⟩) .lengthMismatch) := by decide

/-- P11: the swapped operation code; the payload is not decoded. -/
theorem test_opUnknown_swapped :
    lastResponse (step (one (processRequest (idBytes ++ [0x50, 0x00, 0x00, 0x0E, 0, 0, 0, 0, 0, 2, 0xAB, 0xCD])))) =
      some (.unrecognized 0x0050) := by decide

/-- R65: the DMX pseudo-request writes the datagram of P12. -/
theorem test_dmx_request :
    dmxRequest 0x00 0x0E 0x01 0x00 0x05 0x00 [0x0A, 0x14, 0x1E] =
      processRequest (idBytes ++ [0x00, 0x50] ++ s3) := by decide

/-- S3, P12: the channel data of the record is `0A 14 1E`. -/
theorem test_channelData :
    valueOf (channelData ⟨processRequest (idBytes ++ [0x00, 0x50] ++ s3), .record none (s3Record 18)⟩) =
      some [0x0A, 0x14, 0x1E] := by decide

/-- F2, F3: one byte above the capacity. -/
theorem test_datagram_too_long : refusalOf (step (bounded 19 100 (processRequest p9))) = some .datagramTooLong := by
  decide
theorem test_payload_too_long : refusalOf (step (bounded 100 10 (decodeRequest s3))) = some .payloadTooLong := by
  decide

/-- R36: a read at L. -/
theorem test_read_at_length : valueOf (memRead (processRequest p9) 20) = none := by decide

/-- R21: NotArtNet lists no field. -/
theorem test_unlisted_field : valueOf (readField .notArtNet .opcode) = none := by decide

/-- A meaning without a request in progress has nothing to run. -/
theorem test_no_request : faultOf (exec .opPoll State.reset) = some .noRequest := by decide

/-- A table row's word placed after reset is run by the next step. -/
theorem test_placed_word :
    lastResponse (step (State.reset.withFetchWord 16 0x5200)) = some (.acknowledged 0x5200 .sync) := by decide

/-! ### Witnesses: states and operands that meet a statement's hypotheses together -/

/-- At the boundary: the header row with exactly its ten bytes. -/
theorem witness_DecodeOfEncodedRow :
    (Instr.artnetId).wellFormed = true ∧
      (formatOf .artnetId).len ≤ (encode .artnetId ++ [(0x00 : Byte), 0x50]).length := by decide
theorem witness_DecodeOfEncodedRow_unknown :
    (Instr.opUnknown 0xFFFF).wellFormed = true ∧
      (formatOf (.opUnknown 0xFFFF)).len ≤ (encode (.opUnknown 0xFFFF)).length := by decide

theorem witness_DecodedRowIsItsEncoding : decode .opCode16 [0x00, 0x50] = .ok (.opDmx, []) := rfl
theorem witness_DecodedRowIsItsEncoding_command : decode .command2 [0x06] = .ok (.decodeArtdmx, []) := rfl

theorem witness_TableWordDecodesToItsRow :
    0xFC % 4 = 0 ∧ 0x01 % 4 = 1 ∧ 0x06 % 4 = 2 ∧ 0xFF % 4 = 3 ∧
      0xFFFF0074654E2D747241 % 2 ^ 64 = 0x0074654E2D747241 ∧ 0 % 2 ^ 64 ≠ 0x0074654E2D747241 ∧
      0x12000 % 65536 = 0x2000 ∧ 0x2100 % 65536 = 0x2100 ∧ 0x5000 % 65536 = 0x5000 ∧ 0x5200 % 65536 = 0x5200 ∧
      (0x5201 % 65536 ≠ 0x2000 ∧ 0x5201 % 65536 ≠ 0x2100 ∧ 0x5201 % 65536 ≠ 0x5000 ∧ 0x5201 % 65536 ≠ 0x5200) := by
  decide

theorem witness_ReadAtOrBeyondLengthFaults :
    (processRequest p9).len ≤ 20 ∧ (processRequest p9).buf.wf ∧ 19 < (processRequest p9).len := by decide

/-- A buffer with a hole, in a state that no delivered request gives: the step faults. -/
theorem witness_StepFaultsOnlyOnBrokenBuffer :
    faultOf (step (one { cmd := 0, buf := (Memory.ofBytes p9).drop 1 })) = some (.noByte 0) := by decide

theorem witness_StepRunsTheDecodedCommand :
    (one (classifyRequest p9)).pending = [classifyRequest p9] ∧
      (0x01 : Byte).setWidth 2 = (classifyRequest p9).cmd ∧ decode .command2 [0x01] = .ok (.classify, []) :=
  ⟨rfl, by decide, rfl⟩
theorem witness_StepRunsTheDecodedCommand_idle : State.reset.pending = [] := rfl

theorem witness_ProcessRunsTheRowsOfItsDatagram :
    (one (processRequest p9)).pending = [processRequest p9] ∧ (processRequest p9).buf.wf ∧
      (processRequest p9).cmd = 0 ∧ within (one (processRequest p9)).params.maxDatagramLen (processRequest p9).len ∧
      decode .header10 (processRequest p9).bytes = .ok (.artnetId, p9.drop 8) ∧
      decode .opCode16 (p9.drop 8) = .ok (.opDmx, (processRequest p9).bytes.drop 10) :=
  ⟨rfl, by decide, rfl, by decide, rfl, rfl⟩
theorem witness_ProcessRunsTheRowsOfItsDatagram_nine_bytes :
    (processRequest (p9.take 9)).buf.wf ∧ decode .header10 (processRequest (p9.take 9)).bytes = .error .truncated :=
  ⟨by decide, rfl⟩

theorem witness_PlacedOpcodeWordRunsItsRow :
    within (bounded 10 10 pollRequest).params.maxDatagramLen 10 ∧ decodeTableWord 16 0x2100 = some .opPollReply := by
  decide

/-- For StepAnswersByTheRules, StateAfterResponseIsStateBefore (`s` is the state before the request) and the others that
take an admitted request: one at its exact capacity, for each of the three commands. -/
theorem witness_admitted_process :
    (bounded 20 10 (processRequest p9)).pending = [processRequest p9] ∧ (processRequest p9).buf.wf ∧
      Admitted (bounded 20 10 (processRequest p9)).params (processRequest p9) := by decide
theorem witness_admitted_classify :
    (bounded 20 10 (classifyRequest p9)).pending = [classifyRequest p9] ∧ (classifyRequest p9).buf.wf ∧
      Admitted (bounded 20 10 (classifyRequest p9)).params (classifyRequest p9) := by decide
theorem witness_admitted_decode :
    (bounded 10 11 (decodeRequest s3)).pending = [decodeRequest s3] ∧ (decodeRequest s3).buf.wf ∧
      Admitted (bounded 10 11 (decodeRequest s3)).params (decodeRequest s3) := by decide

theorem witness_StateAfterResponseIsStateBefore :
    State.reset.pending = [] ∧ State.reset.answers = [] ∧ (processRequest p9).buf.wf ∧
      Admitted State.reset.params (processRequest p9) := by decide

theorem witness_RunAnswersRequestsInOrder :
    ∀ r ∈ ((one pollRequest).submit (decodeRequest s3)).pending,
      r.buf.wf ∧ Admitted ((one pollRequest).submit (decodeRequest s3)).params r := by decide

/-- A state whose answered transaction is sound and whose pending buffer is canonical; its step gives a next state. -/
theorem witness_StepKeepsSoundTransactions :
    Inv { params := ⟨none, none⟩, pending := [processRequest p9],
          answers := [⟨pollRequest, .acknowledged 0x2000 .poll⟩] } ∧
      (nextOf (step { params := ⟨none, none⟩, pending := [processRequest p9],
                      answers := [⟨pollRequest, .acknowledged 0x2000 .poll⟩] })).isSome = true := by
  refine ⟨⟨?_, ?_⟩, by decide⟩
  · intro r hr
    rw [List.mem_singleton.mp hr]
    decide
  · intro t ht
    rw [List.mem_singleton.mp ht]
    exact ⟨by decide, by decide, by decide⟩

theorem witness_ResponseDependsOnRequestAlone :
    (one (processRequest p9)).params = ((one (processRequest p9)).submit pollRequest).params ∧
      (one (processRequest p9)).pending = [processRequest p9] ∧
      ((one (processRequest p9)).submit pollRequest).pending = processRequest p9 :: [pollRequest] := by decide

theorem witness_ResetLeavesNoRequestAndNoResponse : (one pollRequest).pending = pollRequest :: [] := rfl

theorem witness_CommandProducesItsKinds :
    (one (decodeRequest s3)).pending = [decodeRequest s3] ∧
      (nextOf (step (one (decodeRequest s3)))).isSome = true := by decide

theorem witness_ReservedCommandIsRefused :
    (one { cmd := 0b11, buf := [] }).pending = [{ cmd := 0b11, buf := [] }] := rfl

theorem witness_OversizedRequestIsRefused :
    (bounded 19 10 (processRequest p9)).pending = [processRequest p9] ∧
      (bounded 19 10 (processRequest p9)).params.maxDatagramLen = some 19 ∧ 19 < (processRequest p9).len ∧
      ((processRequest p9).cmd = 0b00 ∨ (processRequest p9).cmd = 0b01) := by decide
theorem witness_OversizedRequestIsRefused_payload :
    (bounded 19 10 (decodeRequest s3)).pending = [decodeRequest s3] ∧
      (bounded 19 10 (decodeRequest s3)).params.maxPayloadLen = some 10 ∧ 10 < (decodeRequest s3).len ∧
      (decodeRequest s3).cmd = 0b10 := by decide

theorem witness_OnlyListedRequestsAreRefused :
    refusalOf (step (bounded 19 10 (classifyRequest p9))) = some .datagramTooLong := by decide

/-- Both branches: ten bytes with the identifier, and the empty datagram; then nine bytes of a broken buffer. -/
theorem witness_ClassifyAnswersFrameOrNotArtNet :
    (bounded 10 0 (classifyRequest (p9.take 10))).pending = [classifyRequest (p9.take 10)] ∧
      (classifyRequest (p9.take 10)).buf.wf ∧
      within (bounded 10 0 (classifyRequest (p9.take 10))).params.maxDatagramLen (classifyRequest (p9.take 10)).len ∧
      10 ≤ (classifyRequest (p9.take 10)).len ∧ (classifyRequest (p9.take 10)).bytes.take 8 = idBytes := by decide
theorem witness_ClassifyAnswersFrameOrNotArtNet_empty :
    (bounded 0 0 (classifyRequest [])).pending = [classifyRequest []] ∧ (classifyRequest []).buf.wf ∧
      within (bounded 0 0 (classifyRequest [])).params.maxDatagramLen (classifyRequest []).len ∧
      ¬ 10 ≤ (classifyRequest []).len := by decide

theorem witness_ClassifyAnswersFrameOrNotArtNet_broken :
    (one { cmd := 1, buf := (Memory.ofBytes (p9.take 10)).drop 1 }).pending =
        [{ cmd := 1, buf := (Memory.ofBytes (p9.take 10)).drop 1 }] ∧
      (Request.len { cmd := 1, buf := (Memory.ofBytes (p9.take 10)).drop 1 }) < 10 ∧
      ¬ Memory.wf ((Memory.ofBytes (p9.take 10)).drop 1) := by decide

theorem witness_BadHeaderIsNotArtNet_short :
    (one (processRequest (p9.take 9))).pending = [processRequest (p9.take 9)] ∧
      (processRequest (p9.take 9)).len < 10 ∧
      within (one (processRequest (p9.take 9))).params.maxDatagramLen (processRequest (p9.take 9)).len := by decide
theorem witness_BadHeaderIsNotArtNet_identifier :
    (one (processRequest (p9.drop 1))).pending = [processRequest (p9.drop 1)] ∧ (processRequest (p9.drop 1)).buf.wf ∧
      (processRequest (p9.drop 1)).bytes.take 8 ≠ idBytes ∧
      within (one (processRequest (p9.drop 1))).params.maxDatagramLen (processRequest (p9.drop 1)).len := by decide

theorem witness_GoodHeaderPassesTheHeaderRow :
    (one (processRequest (p9.take 10))).pending = [processRequest (p9.take 10)] ∧
      (processRequest (p9.take 10)).buf.wf ∧ 10 ≤ (processRequest (p9.take 10)).len ∧
      (processRequest (p9.take 10)).bytes.take 8 = idBytes := by decide

/-- The states before and after a CLASSIFY that gives a Frame. -/
theorem witness_FramePayloadIsTheRestOfTheDatagram :
    (one (classifyRequest p9)).pending = [classifyRequest p9] ∧ (classifyRequest p9).buf.wf ∧
      nextOf (exec .classify (one (classifyRequest p9))) =
        some (answered (one (classifyRequest p9)) (classifyRequest p9) [] (.frame ⟨0x5000, .dmx, 10, 10⟩)) := by decide

/-- Two datagrams of one length that differ after the header. -/
theorem witness_ClassifyDependsOnHeaderAlone :
    (one (classifyRequest p9)).params = (one (classifyRequest (p9.take 10 ++ p9.take 10))).params ∧
      (classifyRequest p9).len = (classifyRequest (p9.take 10 ++ p9.take 10)).len ∧
      (∀ a, a < 10 → Memory.read (classifyRequest p9).buf a =
        Memory.read (classifyRequest (p9.take 10 ++ p9.take 10)).buf a) ∧
      classifyRequest p9 ≠ classifyRequest (p9.take 10 ++ p9.take 10) := by decide

/-- Each branch of the decoder at its boundary: nine bytes, ten bytes that match, eleven whose count is one short. -/
theorem witness_PayloadDecoderAnswers :
    (one (decodeRequest (p9.drop 10))).pending = [decodeRequest (p9.drop 10)] ∧
      (decodeRequest (p9.drop 10)).buf.wf ∧ (decodeRequest (p9.drop 10)).len = 10 ∧
      within (one (decodeRequest (p9.drop 10))).params.maxPayloadLen (decodeRequest (p9.drop 10)).len := by decide
theorem witness_PayloadDecoderAnswers_route :
    (one (processRequest p9)).pending = [processRequest p9] ∧ (processRequest p9).buf.wf ∧
      10 ≤ (processRequest p9).len := by decide

theorem witness_TooShortDecidesAlone :
    (one (decodeRequest (s3.take 9))).pending = [decodeRequest (s3.take 9)] ∧
      within (one (decodeRequest (s3.take 9))).params.maxPayloadLen (decodeRequest (s3.take 9)).len ∧
      (decodeRequest (s3.take 9)).len < 10 := by decide
theorem witness_TooShortDecidesAlone_route :
    (one (processRequest (p9.take 19))).pending = [processRequest (p9.take 19)] ∧
      (processRequest (p9.take 19)).len - 10 < 10 := by decide

/-- S3 decodes: the equivalence's right side and the second clause. -/
theorem witness_RecordExactlyWhenLengthMatches :
    (one (decodeRequest s3)).pending = [decodeRequest s3] ∧ (decodeRequest s3).buf.wf ∧
      within (one (decodeRequest s3)).params.maxPayloadLen (decodeRequest s3).len ∧
      10 ≤ (decodeRequest s3).len ∧ (decodeRequest s3).len = 8 + declaredNat (decodeRequest s3).bytes ∧
      nextOf (exec .decodeArtdmx (one (decodeRequest s3))) =
        some (answered (one (decodeRequest s3)) (decodeRequest s3) [] (.record none (s3Record 8))) := by decide

/-- D5: N = 0 at M = 10, for the third clause. -/
theorem witness_RecordExactlyWhenLengthMatches_zero :
    (decodeRequest [0x00, 0x0E, 0, 0, 0, 0, 0, 0, 1, 2]).buf.wf ∧
      declaredNat (decodeRequest [0x00, 0x0E, 0, 0, 0, 0, 0, 0, 1, 2]).bytes ≤ 1 := by decide

/-- For RecordDerivationsAreExact and ChannelDataIsTheDeclaredBytes: each of the three instructions gives a Record. -/
theorem witness_record_decodeArtdmx :
    (one (decodeRequest s3)).pending = [decodeRequest s3] ∧ (decodeRequest s3).buf.wf ∧
      nextOf (exec .decodeArtdmx (one (decodeRequest s3))) =
        some (answered (one (decodeRequest s3)) (decodeRequest s3) [] (.record none (s3Record 8))) := by decide
theorem witness_record_process :
    nextOf (exec .process (one (processRequest (idBytes ++ [0x00, 0x50] ++ s3)))) =
      some (answered (one (processRequest (idBytes ++ [0x00, 0x50] ++ s3)))
        (processRequest (idBytes ++ [0x00, 0x50] ++ s3)) [] (.record (some ⟨0x5000, .dmx⟩) (s3Record 18))) ∧
      (processRequest (idBytes ++ [0x00, 0x50] ++ s3)).buf.wf := by decide
theorem witness_record_opDmx :
    nextOf (exec .opDmx (one (processRequest (idBytes ++ [0x00, 0x50] ++ s3)))) =
      some (answered (one (processRequest (idBytes ++ [0x00, 0x50] ++ s3)))
        (processRequest (idBytes ++ [0x00, 0x50] ++ s3)) [] (.record (some ⟨0x5000, .dmx⟩) (s3Record 18))) := by decide

/-- For ProcessAnswersByRoute and ProcessRecordAtDatagramLevel: L = 20, L = 19, and L = 20 with N = 0. -/
theorem witness_ProcessRecordAtDatagramLevel :
    (bounded 20 0 (processRequest p9)).pending = [processRequest p9] ∧ (processRequest p9).buf.wf ∧
      within (bounded 20 0 (processRequest p9)).params.maxDatagramLen (processRequest p9).len ∧
      (processRequest p9).bytes.take 10 = idBytes ++ [0x00, 0x50] ∧ 20 ≤ (processRequest p9).len ∧
      (processRequest p9).len =
        18 + (256 * (byteAt (processRequest p9).bytes 16).toNat + (byteAt (processRequest p9).bytes 17).toNat) := by
  decide
theorem witness_ProcessRecordAtDatagramLevel_short :
    (processRequest (p9.take 19)).buf.wf ∧ (processRequest (p9.take 19)).bytes.take 10 = idBytes ++ [0x00, 0x50] ∧
      (processRequest (p9.take 19)).len ≤ 19 := by decide
theorem witness_ProcessRecordAtDatagramLevel_mismatch :
    (processRequest (p9 ++ [0x00])).buf.wf ∧ (processRequest (p9 ++ [0x00])).bytes.take 10 = idBytes ++ [0x00, 0x50] ∧
      20 ≤ (processRequest (p9 ++ [0x00])).len ∧
      (processRequest (p9 ++ [0x00])).len ≠
        18 + (256 * (byteAt (processRequest (p9 ++ [0x00])).bytes 16).toNat +
          (byteAt (processRequest (p9 ++ [0x00])).bytes 17).toNat) := by decide

/-- For AcknowledgingRoutes and UnknownRouteGivesTheCode. -/
theorem witness_AcknowledgingRoutes : (one syncRequest).pending = [syncRequest] := rfl

theorem witness_ProcessIsClassifyThenDecode :
    (one (processRequest p9)).pending = [processRequest p9] ∧ (processRequest p9).buf.wf ∧
      nextOf (exec .classify (one (processRequest p9))) =
        some (answered (one (processRequest p9)) (processRequest p9) [] (.frame ⟨0x5000, .dmx, 10, 10⟩)) ∧
      (nextOf (exec .decodeArtdmx
        { one (processRequest p9) with pending := decodeRequest ((processRequest p9).bytes.drop 10) :: [] })).isSome
        = true := by decide

/-- Two bytes of data, and one. -/
theorem witness_DmxRequestRoundTrip :
    (one (dmxRequest 0 14 1 0 5 0 [7, 8])).pending = dmxRequest 0 14 1 0 5 0 [7, 8] :: [] ∧
      within (one (dmxRequest 0 14 1 0 5 0 [7, 8])).params.maxDatagramLen (dmxRequest 0 14 1 0 5 0 [7, 8]).len ∧
      2 ≤ [(7 : Byte), 8].length ∧ [(7 : Byte), 8].length ≤ 65535 ∧ [(7 : Byte)].length < 2 := by decide

theorem witness_AnsweringInstructionsFrame : (nextOf (exec .opPoll (one pollRequest))).isSome = true := by decide

theorem witness_HeaderRowFrame : (nextOf (exec .artnetId (one (processRequest [])))).isSome = true := by decide

/-- A field NotArtNet does not list, and one a Frame lists. -/
theorem witness_UnlistedFieldFaults :
    RespField.opcode ∉ fieldsOf .notArtNet ∧ RespField.payloadLen ∈ fieldsOf (.frame ⟨0x5000, .dmx, 10, 0⟩) := by decide

theorem witness_HostMoves :
    ((nextOf (step (one pollRequest))).map (·.answers)) = some [⟨pollRequest, .acknowledged 0x2000 .poll⟩] := by decide

end Sys2Proof.Tests
end

/-!
PROOFS. The state family: what a step depends on, what the instructions leave unchanged, the host's moves and the fields of
a response.
-/

namespace Sys2Proof.Proofs.StateFamily

open Sys2Proof.Machine Sys2Proof.Safety

/-! ### The outcome depends on the request in progress alone (R23) -/

theorem sameResponse_refl (x : Result) : SameResponse x x := by
  cases x <;> simp [SameResponse]

/-- Every route is one answer to the request in progress. -/
theorem routeOf_eq_answerWith (c : OpClass) : ∃ f, ∀ s, routeOf c s = answerWith s f := by
  cases c
  case dmx => exact ⟨fun r => decodePayload r payloadOff (r.len - hdrLen) (some dmxTag), fun _ => rfl⟩
  case poll => exact ⟨fun _ => .ok (.acknowledged opPollCode .poll), fun _ => rfl⟩
  case pollReply => exact ⟨fun _ => .ok (.acknowledged opPollReplyCode .pollReply), fun _ => rfl⟩
  case sync => exact ⟨fun _ => .ok (.acknowledged opSyncCode .sync), fun _ => rfl⟩
  case unknown code => exact ⟨fun _ => .ok (.unrecognized code), fun _ => rfl⟩

section SameRequest

variable {s u : State} {r : Request} {rest more : List Request}

/-- Both states answer with what `f` gives for the request they share. -/
theorem answerWith_sameResponse (f : Request → Except Fault Response) (hs : s.pending = r :: rest)
    (hu : u.pending = r :: more) : SameResponse (answerWith s f) (answerWith u f) := by
  cases hf : f r with
  | error e => simp [answerWith, hs, hu, hf, SameResponse]
  | ok v => simp [answerWith_ok hs hf, answerWith_ok hu hf, SameResponse]

/-- Admission looks at the length of the request in progress only. -/
theorem checkCapacity_sameResponse {cap : Option Nat} {why : Refusal} {k : State → Result}
    (hs : s.pending = r :: rest) (hu : u.pending = r :: more) (hk : SameResponse (k s) (k u)) :
    SameResponse (checkCapacity s cap why k) (checkCapacity u cap why k) := by
  by_cases hw : within cap r.len
  · rwa [checkCapacity_within hs hw, checkCapacity_within hu hw]
  · have hex : exceeds cap r.len = true := by
      rwa [← exceeds_false_iff, Bool.not_eq_false] at hw
    obtain ⟨n, rfl, hn⟩ := (exceeds_true_iff cap r.len).mp hex
    rw [checkCapacity_exceeds hs hn, checkCapacity_exceeds hu hn]
    exact sameResponse_refl _

theorem routeOf_sameResponse (c : OpClass) (hs : s.pending = r :: rest) (hu : u.pending = r :: more) :
    SameResponse (routeOf c s) (routeOf c u) := by
  obtain ⟨f, hf⟩ := routeOf_eq_answerWith c
  rw [hf, hf]
  exact answerWith_sameResponse f hs hu

theorem processAdmitted_sameResponse (hs : s.pending = r :: rest) (hu : u.pending = r :: more) :
    SameResponse (processAdmitted s) (processAdmitted u) := by
  simp only [processAdmitted, hs, hu]
  cases classifyFrame r with
  | error e => exact sameResponse_refl (.fault e)
  | ok o =>
    cases o with
    | none => exact answerWith_sameResponse _ hs hu
    | some f => exact routeOf_sameResponse f.opClass hs hu

/-- A command, unlike the header row on its own, ends alike in two states that share parameters and request. -/
theorem exec_decodeCommand_sameResponse (cmd : Cmd) (hparams : s.params = u.params)
    (hs : s.pending = r :: rest) (hu : u.pending = r :: more) :
    SameResponse (exec (decodeCommand cmd) s) (exec (decodeCommand cmd) u) := by
  unfold decodeCommand
  split_ifs
  case pos =>
    simp only [exec, execProcess, hparams]
    exact checkCapacity_sameResponse hs hu (processAdmitted_sameResponse hs hu)
  case pos =>
    simp only [exec, execClassify, hparams]
    exact checkCapacity_sameResponse hs hu (answerWith_sameResponse _ hs hu)
  case pos =>
    simp only [exec, execDecodeArtdmx, hparams]
    exact checkCapacity_sameResponse hs hu (answerWith_sameResponse _ hs hu)
  case neg => exact sameResponse_refl (.refused .reservedCommand)

end SameRequest

/-- Settles O15: every part of a command reads the parameters and the request in progress only. -/
theorem responseDependsOnRequestAlone : Obligations.ResponseDependsOnRequestAlone := by
  intro s u r rest more hparams hs hu
  rw [step_cons hs, step_cons hu]
  exact exec_decodeCommand_sameResponse r.cmd hparams hs hu

/-- Settles O17: after the reset signal the submitted request is the one in progress, so O15 gives the outcome. -/
theorem resetLeavesNoRequestAndNoResponse : Obligations.ResetLeavesNoRequestAndNoResponse := by
  refine ⟨⟨rfl, rfl⟩, fun s => ⟨s.resetSignal_pending, s.resetSignal_answers⟩, ?_⟩
  intro s r rest hs
  have hpending : (s.resetSignal.submit r).pending = [r] := by simp
  exact responseDependsOnRequestAlone (s.resetSignal.submit r) s r [] rest (by simp) hpending hs

/-! ### What the instructions leave unchanged (R19, R30) -/

/-- Answering moves the request's buffer from the pending requests to the answered transactions, in the same place. -/
theorem buffers_answered {s : State} {r : Request} {rest : List Request} (hs : s.pending = r :: rest) (v : Response) :
    buffers (answered s r rest v) = buffers s := by
  simp [buffers, answered, hs]

theorem sameBytes_of_buffers_eq {s t : State} (h : buffers t = buffers s) : SameBytes s t := by
  simp [SameBytes, h]

theorem sameBytes_answered {s : State} {r : Request} {rest : List Request} (hs : s.pending = r :: rest) (v : Response) :
    SameBytes s (answered s r rest v) :=
  sameBytes_of_buffers_eq (buffers_answered hs v)

/-- Everything that answering can do when it gives a next state, whatever the response is. -/
theorem answerWith_next {s t : State} {f : Request → Except Fault Response} (h : answerWith s f = .next t) :
    ∃ r rest v, s.pending = r :: rest ∧ t = answered s r rest v := by
  obtain ⟨r, rest, v, hs, -, ht⟩ := answerWith_cases h
  exact ⟨r, rest, v, hs, ht⟩

/-- Everything that an instruction other than the header row can do when it gives a next state. -/
theorem exec_next {i : Instr} (hi : i ≠ .artnetId) {s t : State} (h : exec i s = .next t) :
    ∃ r rest v, s.pending = r :: rest ∧ t = answered s r rest v := by
  cases i with
  | process => exact processAdmitted_cases (checkCapacity_cases h)
  | classify =>
    simp only [exec, execClassify] at h
    exact answerWith_next (checkCapacity_cases h)
  | decodeArtdmx =>
    simp only [exec, execDecodeArtdmx] at h
    exact answerWith_next (checkCapacity_cases h)
  | reservedCmd => cases h
  | artnetId => exact absurd rfl hi
  | opPoll => exact routeOf_cases (c := .poll) h
  | opPollReply => exact routeOf_cases (c := .pollReply) h
  | opDmx => exact routeOf_cases (c := .dmx) h
  | opSync => exact routeOf_cases (c := .sync) h
  | opUnknown code => exact routeOf_cases (c := .unknown code) h

/-- Everything that the header row can do when it gives a next state. -/
theorem execArtnetId_cases {s t : State} (h : execArtnetId s = .next t) :
    t = s ∨ ∃ r rest, s.pending = r :: rest ∧ t = answered s r rest .notArtNet := by
  unfold execArtnetId at h
  split at h
  · cases h
  · split at h
    · cases h
    · cases h
      exact .inl rfl
    · obtain ⟨r, rest, v, hs, hv, ht⟩ := answerWith_cases h
      cases hv
      exact .inr ⟨r, rest, hs, ht⟩

theorem answerFrame_of_ne_artnetId {i : Instr} (hi : i ≠ .artnetId) : AnswerFrame i := by
  intro s t h
  obtain ⟨r, rest, v, hs, rfl⟩ := exec_next hi h
  exact ⟨⟨r, rest, v, hs, rfl, rfl, rfl⟩, sameBytes_answered hs v⟩

/-- Settles O38: none of the eight rows is the header row, and every other row can only answer. -/
theorem answeringInstructionsFrame : Obligations.AnsweringInstructionsFrame := by
  refine ⟨?_, ?_, ?_, ?_, ?_, ?_, ?_, fun code => ?_⟩ <;>
    exact answerFrame_of_ne_artnetId (by simp)

/-- Settles O39, by the two ways the header row gives a next state. -/
theorem headerRowFrame : Obligations.HeaderRowFrame := by
  intro s t h
  refine ⟨execArtnetId_cases h, ?_⟩
  obtain rfl | ⟨r, rest, hs, rfl⟩ := execArtnetId_cases h
  · exact sameBytes_of_buffers_eq rfl
  · exact sameBytes_answered hs .notArtNet

/-! ### The step, reset and the host's moves -/

theorem decode_command2_cons (c : Byte) (bs : List Byte) :
    decode .command2 (c :: bs) = .ok (decodeCommand (c.setWidth 2), bs) := rfl

/-- Settles O8: the decoder reads from the byte the row that the step runs. -/
theorem stepRunsTheDecodedCommand : Obligations.StepRunsTheDecodedCommand := by
  refine ⟨?_, fun s => step_nil⟩
  intro s r rest c i hs hc hdec
  have hi : decodeCommand r.cmd = i := by
    rw [decode_command2_cons, hc] at hdec
    simpa using hdec
  rw [step_cons hs, hi]

theorem inv_of_no_transactions {s : State} (hp : s.pending = []) (ha : s.answers = []) : Safety.Inv s := by
  simp [Safety.Inv, hp, ha]

/-- Settles O14: there is no transaction that could break the invariant. -/
theorem resetHasSoundTransactions : Obligations.ResetHasSoundTransactions :=
  inv_of_no_transactions rfl rfl

theorem take_of_answers_cons {s : State} {x : Transaction} {more : List Transaction} (h : s.answers = x :: more) :
    s.take = some (x, { s with answers := more }) := by
  simp [State.take, h]

theorem take_of_answers_nil {s : State} (h : s.answers = []) : s.take = none := by
  simp [State.take, h]

/-- Settles O42, move by move. -/
theorem hostMoves : Obligations.HostMoves :=
  ⟨fun s r => ⟨s.submit_params r, s.submit_pending r, s.submit_answers r⟩,
    fun _ _ _ => take_of_answers_cons, fun _ => take_of_answers_nil⟩

/-! ### Reading one field of a response (R20, R21) -/

/-- The reader gives a value for the listed fields and faults by name for every other. -/
def ReadsExactly (read : RespField → Except Fault Nat) (listed : List RespField) : Prop :=
  ∀ x, (x ∉ listed → read x = .error .unlistedField) ∧ (x ∈ listed → ∃ n, read x = .ok n)

theorem readFrame_readsExactly (f : Frame) :
    ReadsExactly (readFrame f) [.opcode, .opClass, .payloadOff, .payloadLen] := by
  intro x
  cases x <;> simp [readFrame]

theorem readTag_some_readsExactly (t : Tag) : ReadsExactly (readTag (some t)) [.opcode, .opClass] := by
  intro x
  cases x <;> simp [readTag]

theorem readTag_readsExactly (tag : Option Tag) :
    ReadsExactly (readTag tag) (if tag.isSome then [.opcode, .opClass] else []) := by
  cases tag with
  | none => intro x; simp [readTag]
  | some t => exact readTag_some_readsExactly t

/-- The fields that no tag lists are read from the record itself, and the others from the tag. -/
theorem readRecord_readsExactly (tag : Option Tag) (d : Record) :
    ReadsExactly (readRecord tag d) (fieldsOf (.record tag d)) := by
  intro x
  have htag := readTag_readsExactly tag x
  cases x with
  | opcode | opClass | payloadOff | payloadLen | err => simpa [readRecord, fieldsOf] using htag
  | _ => simp [readRecord, fieldsOf]

theorem readDecodeError_readsExactly (tag : Option Tag) (e : DecodeErr) :
    ReadsExactly (readField (.decodeError tag e)) (fieldsOf (.decodeError tag e)) := by
  intro x
  by_cases hx : x = .err
  · simp [readField, fieldsOf, hx]
  · simpa [readField, fieldsOf, hx] using readTag_readsExactly tag x

theorem readField_readsExactly (v : Response) : ReadsExactly (readField v) (fieldsOf v) := by
  cases v with
  | notArtNet => intro x; simp [readField, fieldsOf]
  | frame f => exact readFrame_readsExactly f
  | acknowledged opcode opClass => exact readTag_some_readsExactly ⟨opcode, opClass⟩
  | unrecognized opcode => exact readTag_some_readsExactly ⟨opcode, .unknown opcode⟩
  | record tag d => exact readRecord_readsExactly tag d
  | decodeError tag e => exact readDecodeError_readsExactly tag e

/-- Settles O41, by the kinds of response. -/
theorem unlistedFieldFaults : Obligations.UnlistedFieldFaults :=
  readField_readsExactly

end Sys2Proof.Proofs.StateFamily

/-!
PROOFS. The memory family: what a read of a buffer gives, the one outcome of a step on a canonical buffer, and the
invariant of the machine's transactions.
-/

namespace Sys2Proof.Proofs.MemoryFamily

open Sys2Proof.Machine Sys2Proof.Safety

/-- Settles O6, by the two laws of a read. -/
theorem readAtOrBeyondLengthFaults : Obligations.ReadAtOrBeyondLengthFaults :=
  fun r _ => ⟨memRead_beyond r, fun hwf ha => memRead_wf hwf ha⟩

/-! ### What each command answers on a canonical buffer -/

section Commands

variable {s : State} {r : Request} {rest : List Request}

/-- A meaning that reads no byte gives its response to any request in progress. -/
theorem answerWith_const (hp : s.pending = r :: rest) (v : Response) :
    answerWith s (fun _ => .ok v) = .next (answered s r rest v) :=
  answerWith_ok hp rfl

/-- The route that DEMUX picks gives the answer of PROCESS to a datagram with a whole header (R90 to R97). -/
theorem routeOf_demux_wf (hp : s.pending = r :: rest) (hwf : r.buf.wf) (hh : hasHeader r.bytes = true) :
    routeOf (demux (opcodeIn r.bytes)) s = .next (answered s r rest (processAnswer r.bytes)) := by
  simp only [processAnswer, hh, if_true]
  rcases demux_cases (opcodeIn r.bytes) with ⟨e, h⟩ | ⟨e, h⟩ | ⟨e, h⟩ | ⟨e, h⟩ | ⟨⟨hpoll, hreply, hdmx, hsync⟩, h⟩
  case inr.inr.inl =>
    have hlen : payloadOff ≤ r.len := by simpa [payloadOff] using hasHeader_length hh
    rw [h, if_pos e]
    exact answerWith_ok hp (decodePayload_wf hwf hlen (some dmxTag))
  case inr.inr.inr.inr =>
    rw [h, if_neg hdmx, if_neg hpoll, if_neg hreply, if_neg hsync]
    exact answerWith_const hp _
  all_goals
    rw [h, e]
    exact answerWith_const hp _

theorem processAdmitted_wf (hp : s.pending = r :: rest) (hwf : r.buf.wf) :
    processAdmitted s = .next (answered s r rest (processAnswer r.bytes)) := by
  simp only [processAdmitted, hp, classifyFrame_wf hwf]
  by_cases hh : hasHeader r.bytes = true
  · simp only [hh, if_true]
    exact routeOf_demux_wf hp hwf hh
  · simp only [hh, processAnswer]
    exact answerWith_const hp _

theorem execProcess_wf (hp : s.pending = r :: rest) (hwf : r.buf.wf) (hw : within s.params.maxDatagramLen r.len) :
    execProcess s = .next (answered s r rest (processAnswer r.bytes)) :=
  (checkCapacity_within hp hw).trans (processAdmitted_wf hp hwf)

theorem classifyResponse_wf (hwf : r.buf.wf) : classifyResponse r = .ok (classifyAnswer r.bytes) := by
  simp only [classifyResponse, classifyFrame_wf hwf, classifyAnswer, bind, Except.bind]
  by_cases hh : hasHeader r.bytes = true <;> simp [hh]

theorem execClassify_wf (hp : s.pending = r :: rest) (hwf : r.buf.wf) (hw : within s.params.maxDatagramLen r.len) :
    execClassify s = .next (answered s r rest (classifyAnswer r.bytes)) :=
  (checkCapacity_within hp hw).trans (answerWith_ok hp (classifyResponse_wf hwf))

theorem execDecodeArtdmx_wf (hp : s.pending = r :: rest) (hwf : r.buf.wf) (hw : within s.params.maxPayloadLen r.len) :
    execDecodeArtdmx s = .next (answered s r rest (payloadAnswer none 0 r.bytes)) :=
  (checkCapacity_within hp hw).trans (answerWith_ok hp (decodePayload_wf hwf (Nat.zero_le r.len) none))

/-! ### The one outcome of a step with a request in progress -/

/-- Everything that the decoding of a command can give. -/
theorem decodeCommand_cases (c : Cmd) :
    (c = 0 ∧ decodeCommand c = .process) ∨ (c = 1 ∧ decodeCommand c = .classify) ∨
    (c = 2 ∧ decodeCommand c = .decodeArtdmx) ∨ (c = 3 ∧ decodeCommand c = .reservedCmd) := by
  revert c
  decide

theorem checkCapacity_of_not_within {cap : Option Nat} {why : Refusal} {k : State → Result}
    (hp : s.pending = r :: rest) (hw : ¬ within cap r.len) : checkCapacity s cap why k = .refused why := by
  have hex : exceeds cap r.len = true := by
    rwa [← exceeds_false_iff, Bool.not_eq_false] at hw
  simp [checkCapacity, hp, hex]

theorem execProcess_of_not_within (hp : s.pending = r :: rest) (hw : ¬ within s.params.maxDatagramLen r.len) :
    execProcess s = .refused .datagramTooLong :=
  checkCapacity_of_not_within hp hw

theorem execClassify_of_not_within (hp : s.pending = r :: rest) (hw : ¬ within s.params.maxDatagramLen r.len) :
    execClassify s = .refused .datagramTooLong :=
  checkCapacity_of_not_within hp hw

theorem execDecodeArtdmx_of_not_within (hp : s.pending = r :: rest) (hw : ¬ within s.params.maxPayloadLen r.len) :
    execDecodeArtdmx s = .refused .payloadTooLong :=
  checkCapacity_of_not_within hp hw

/-- An admitted request in a canonical buffer gets the rules' answer, and nothing else happens. -/
theorem step_of_admitted (hp : s.pending = r :: rest) (hwf : r.buf.wf) (hadm : Admitted s.params r) :
    ∃ v, answerTo r.cmd r.bytes = some v ∧ step s = .next (answered s r rest v) := by
  obtain ⟨hreserved, hdatagram, hpayload⟩ := hadm
  rcases decodeCommand_cases r.cmd with ⟨hc, hrow⟩ | ⟨hc, hrow⟩ | ⟨hc, hrow⟩ | ⟨hc, hrow⟩ <;>
    rw [step_cons hp, hrow]
  · have hw := hdatagram (.inl hc)
    rw [hc]
    exact ⟨_, rfl, execProcess_wf hp hwf hw⟩
  · have hw := hdatagram (.inr hc)
    rw [hc]
    exact ⟨_, rfl, execClassify_wf hp hwf hw⟩
  · have hw := hpayload hc
    rw [hc]
    exact ⟨_, rfl, execDecodeArtdmx_wf hp hwf hw⟩
  · exact absurd hc hreserved

/-- A request that R113 does not admit is refused, whatever its buffer. -/
theorem step_of_not_admitted (hp : s.pending = r :: rest) (hadm : ¬ Admitted s.params r) :
    ∃ why, step s = .refused why := by
  rcases decodeCommand_cases r.cmd with ⟨hc, hrow⟩ | ⟨hc, hrow⟩ | ⟨hc, hrow⟩ | ⟨hc, hrow⟩ <;>
    rw [step_cons hp, hrow]
  · have hw : ¬ within s.params.maxDatagramLen r.len := fun hw => hadm ⟨by simp [hc], fun _ => hw, by simp [hc]⟩
    exact ⟨_, execProcess_of_not_within hp hw⟩
  · have hw : ¬ within s.params.maxDatagramLen r.len := fun hw => hadm ⟨by simp [hc], fun _ => hw, by simp [hc]⟩
    exact ⟨_, execClassify_of_not_within hp hw⟩
  · have hw : ¬ within s.params.maxPayloadLen r.len := fun hw => hadm ⟨by simp [hc], by simp [hc], fun _ => hw⟩
    exact ⟨_, execDecodeArtdmx_of_not_within hp hw⟩
  · exact ⟨.reservedCommand, rfl⟩

/-- Everything that a step on a canonical buffer can do: give the rules' answer or refuse, and never fault. -/
theorem step_wf_cases (hp : s.pending = r :: rest) (hwf : r.buf.wf) :
    (∃ v, Sound s.params ⟨r, v⟩ ∧ step s = .next (answered s r rest v)) ∨ ∃ why, step s = .refused why := by
  by_cases hadm : Admitted s.params r
  · obtain ⟨v, hv, hstep⟩ := step_of_admitted hp hwf hadm
    exact .inl ⟨v, ⟨hwf, hadm, hv⟩, hstep⟩
  · exact .inr (step_of_not_admitted hp hadm)

/-- Giving the request in progress a sound answer keeps the invariant. -/
theorem inv_answered (hp : s.pending = r :: rest) (hs : Safety.Inv s) {v : Response} (hv : Sound s.params ⟨r, v⟩) :
    Safety.Inv (answered s r rest v) := by
  obtain ⟨hpending, hanswers⟩ := hs
  constructor
  · intro q hq
    exact hpending q (by rw [hp]; exact List.mem_cons_of_mem r hq)
  · intro t ht
    rcases List.mem_append.mp ht with ht | ht
    · exact hanswers t ht
    · rw [List.mem_singleton.mp ht]
      exact hv

end Commands

/-- Settles O13: a step that gives a next state is idle or adds one sound answer. -/
theorem stepKeepsSoundTransactions : Obligations.StepKeepsSoundTransactions := by
  intro s t hs hstep
  cases hp : s.pending with
  | nil =>
    rw [step_nil hp] at hstep
    cases hstep
    exact hs
  | cons r rest =>
    have ⟨hpending, _⟩ := hs
    have hwf : r.buf.wf := hpending r (by simp [hp])
    obtain ⟨v, hv, hnext⟩ | ⟨why, hrefused⟩ := step_wf_cases hp hwf
    · rw [hnext] at hstep
      cases hstep
      exact inv_answered hp hs hv
    · rw [hrefused] at hstep
      cases hstep

/-- Settles O7: the idle step does not fault, and no step on a canonical buffer does. -/
theorem stepFaultsOnlyOnBrokenBuffer : Obligations.StepFaultsOnlyOnBrokenBuffer := by
  intro s f hstep
  cases hp : s.pending with
  | nil =>
    rw [step_nil hp] at hstep
    cases hstep
  | cons r rest =>
    refine ⟨r, rest, rfl, fun hwf => ?_⟩
    obtain ⟨v, -, hnext⟩ | ⟨why, hrefused⟩ := step_wf_cases hp hwf
    · rw [hnext] at hstep
      cases hstep
    · rw [hrefused] at hstep
      cases hstep

end Sys2Proof.Proofs.MemoryFamily

/-!
PROOFS. The encoding family: decoding and encoding are inverse on rows, words and whole DMX requests, the kinds of
response each command gives, and the numeric codes of a response.
-/

namespace Sys2Proof.Proofs.EncodingFamily

open Sys2Proof.Machine Sys2Proof.Safety
open Sys2Proof.Proofs.MemoryFamily (decodeCommand_cases execProcess_wf)

/-! ### Decoding of an encoded row (R48 to R59) -/

/-- Settles O1, by the law of each row. -/
theorem decodeOfEncodedRow : Obligations.DecodeOfEncodedRow := by
  intro i
  cases i with
  | process => exact Laws.DecodeEncode.process
  | classify => exact Laws.DecodeEncode.classify
  | decodeArtdmx => exact Laws.DecodeEncode.decodeArtdmx
  | reservedCmd => exact Laws.DecodeEncode.reservedCmd
  | artnetId => exact Laws.DecodeEncode.artnetId
  | opPoll => exact Laws.DecodeEncode.opPoll
  | opPollReply => exact Laws.DecodeEncode.opPollReply
  | opDmx => exact Laws.DecodeEncode.opDmx
  | opSync => exact Laws.DecodeEncode.opSync
  | opUnknown code => exact Laws.DecodeEncode.opUnknown code

/-! ### Encoding of a decoded row -/

/-- A command code names a well-formed row of the command format, whose byte is the code. -/
theorem decodeCommand_row (c : Cmd) :
    (decodeCommand c).wellFormed = true ∧ formatOf (decodeCommand c) = .command2 ∧
      encode (decodeCommand c) = [c.setWidth 8] := by
  rcases decodeCommand_cases c with ⟨hc, hrow⟩ | ⟨hc, hrow⟩ | ⟨hc, hrow⟩ | ⟨hc, hrow⟩ <;>
    rw [hrow, hc] <;>
    exact ⟨rfl, rfl, rfl⟩

/-- An operation code names a well-formed row of the operation-code format, whose bytes are those of the code. -/
theorem decodeOpcode_row (c : Half) :
    (decodeOpcode c).wellFormed = true ∧ formatOf (decodeOpcode c) = .opCode16 ∧
      encode (decodeOpcode c) = opBytes c := by
  rcases decodeOpcode_cases c with ⟨hc, hrow⟩ | ⟨hc, hrow⟩ | ⟨hc, hrow⟩ | ⟨hc, hrow⟩ | ⟨hc, hrow⟩ <;> rw [hrow]
  case inr.inr.inr.inr =>
    obtain ⟨hpoll, hreply, hdmx, hsync⟩ := hc
    refine ⟨?_, rfl, rfl⟩
    simp only [Instr.wellFormed, Bool.and_eq_true, bne_iff_ne]
    exact ⟨⟨⟨hpoll, hreply⟩, hdmx⟩, hsync⟩
  all_goals
    rw [hc]
    exact ⟨rfl, rfl, rfl⟩

theorem decode_header10 (bs : List Byte) :
    decode .header10 bs =
      if bs.length < 10 then .error .truncated
      else if bs.take 8 = artnetIdBytes then .ok (.artnetId, bs.drop 8) else .error .notIdentifier := rfl

/-- Everything that the decoder reads from bytes in the command format. -/
theorem decode_command2_cases {bs rest : List Byte} {i : Instr} (h : decode .command2 bs = .ok (i, rest)) :
    ∃ c : Byte, bs = c :: rest ∧ i = decodeCommand (c.setWidth 2) := by
  cases bs with
  | nil => cases h
  | cons c bs =>
    cases h
    exact ⟨c, rfl, rfl⟩

/-- Everything that the decoder reads from bytes in the header format. -/
theorem decode_header10_cases {bs rest : List Byte} {i : Instr} (h : decode .header10 bs = .ok (i, rest)) :
    i = .artnetId ∧ bs = artnetIdBytes ++ rest := by
  rw [decode_header10] at h
  split_ifs at h with hlen hid
  cases h
  exact ⟨rfl, by rw [← hid, List.take_append_drop]⟩

/-- Everything that the decoder reads from bytes in the operation-code format. -/
theorem decode_opCode16_cases {bs rest : List Byte} {i : Instr} (h : decode .opCode16 bs = .ok (i, rest)) :
    ∃ lo hi : Byte, bs = lo :: hi :: rest ∧ i = decodeOpcode (le16 lo hi) := by
  match bs, h with
  | lo :: hi :: _, h =>
    cases h
    exact ⟨lo, hi, rfl, rfl⟩

/-- Settles O2, by what the decoder reads in each format. -/
theorem decodedRowIsItsEncoding : Obligations.DecodedRowIsItsEncoding := by
  intro f bs i rest h
  cases f with
  | command2 =>
    obtain ⟨c, rfl, rfl⟩ := decode_command2_cases h
    obtain ⟨hwf, hformat, henc⟩ := decodeCommand_row (c.setWidth 2)
    exact ⟨hwf, hformat, fun hf => absurd rfl hf, fun _ => ⟨c, rfl, henc⟩⟩
  | header10 =>
    obtain ⟨rfl, rfl⟩ := decode_header10_cases h
    exact ⟨rfl, rfl, fun _ => rfl, nofun⟩
  | opCode16 =>
    obtain ⟨lo, hi, rfl, rfl⟩ := decode_opCode16_cases h
    obtain ⟨hwf, hformat, henc⟩ := decodeOpcode_row (le16 lo hi)
    refine ⟨hwf, hformat, fun _ => ?_, nofun⟩
    rw [henc, opBytes_le16]
    rfl

/-! ### Words of the opcode table -/

theorem ofNat_eq_ofNat_iff (n v w : Nat) : BitVec.ofNat n v = BitVec.ofNat n w ↔ v % 2 ^ n = w % 2 ^ n := by
  rw [← BitVec.toNat_inj, BitVec.toNat_ofNat, BitVec.toNat_ofNat]

/-- The bytes of a word hold its value up to their number, and nothing else of it. -/
theorem wordBytes_eq_iff (n v w : Nat) : wordBytes n v = wordBytes n w ↔ v % 256 ^ n = w % 256 ^ n := by
  induction n generalizing v w with
  | zero => simp [wordBytes, Nat.mod_one]
  | succ n ih =>
    have hbyte : BitVec.ofNat 8 v = BitVec.ofNat 8 w ↔ v % 256 = w % 256 := ofNat_eq_ofNat_iff 8 v w
    rw [wordBytes, wordBytes, List.cons.injEq, hbyte, ih, pow_succ', Nat.mod_mul, Nat.mod_mul]
    omega

theorem take_wordBytes (m n w : Nat) : (wordBytes (m + n) w).take m = wordBytes m w := by
  induction m generalizing w with
  | zero => simp [wordBytes]
  | succ m ih => simp [Nat.succ_add, wordBytes, ih]

@[simp] theorem length_wordBytes (n w : Nat) : (wordBytes n w).length = n := by
  induction n generalizing w with
  | zero => rfl
  | succ n ih => simp [wordBytes, ih]

theorem artnetIdBytes_eq_wordBytes : artnetIdBytes = wordBytes 8 0x0074654E2D747241 := by decide

theorem le16_ofNat (w : Nat) : le16 (BitVec.ofNat 8 w) (BitVec.ofNat 8 (w / 256)) = BitVec.ofNat 16 w := by
  rw [le16_eq]
  apply BitVec.eq_of_toNat_eq
  simp only [BitVec.toNat_ofNat]
  omega

theorem decodeTableWord_command (w : Nat) : decodeTableWord 8 w = some (decodeCommand (BitVec.ofNat 2 w)) := by
  have hcmd : (BitVec.ofNat 8 w).setWidth 2 = BitVec.ofNat 2 w := by
    apply BitVec.eq_of_toNat_eq
    simp only [BitVec.toNat_setWidth, BitVec.toNat_ofNat]
    omega
  rw [← hcmd]
  rfl

theorem decodeTableWord_opcode (w : Nat) : decodeTableWord 16 w = some (decodeOpcode (BitVec.ofNat 16 w)) := by
  rw [← le16_ofNat]
  rfl

theorem decodeTableWord_header (w : Nat) :
    decodeTableWord 80 w = if w % 2 ^ 64 = 0x0074654E2D747241 then some .artnetId else none := by
  have hid : (wordBytes 10 w).take 8 = artnetIdBytes ↔ w % 2 ^ 64 = 0x0074654E2D747241 := by
    rw [take_wordBytes 8 2, artnetIdBytes_eq_wordBytes, wordBytes_eq_iff]
    norm_num
  have hformat : tableFormat 80 = .header10 := rfl
  rw [decodeTableWord, hformat, decode_header10]
  simp only [RowFormat.len, length_wordBytes, lt_irrefl, if_false, hid]
  split_ifs <;> rfl

/-- The row of a command code given by its two bits. -/
theorem decodeTableWord_command_of_mod {w k : Nat} (h : w % 4 = k) :
    decodeTableWord 8 w = some (decodeCommand (BitVec.ofNat 2 k)) := by
  rw [decodeTableWord_command, (ofNat_eq_ofNat_iff 2 w k).mpr (by omega)]

/-- The row of an operation code given by its sixteen bits. -/
theorem decodeTableWord_opcode_of_mod {w k : Nat} (h : w % 65536 = k) :
    decodeTableWord 16 w = some (decodeOpcode (BitVec.ofNat 16 k)) := by
  rw [decodeTableWord_opcode, (ofNat_eq_ofNat_iff 16 w k).mpr (by omega)]

theorem decodeOpcode_of_unknown {c : Half} (hpoll : c ≠ 0x2000) (hreply : c ≠ 0x2100) (hdmx : c ≠ 0x5000)
    (hsync : c ≠ 0x5200) : decodeOpcode c = .opUnknown c := by
  rcases decodeOpcode_cases c with ⟨hc, -⟩ | ⟨hc, -⟩ | ⟨hc, -⟩ | ⟨hc, -⟩ | ⟨-, hrow⟩
  · exact absurd hc hpoll
  · exact absurd hc hreply
  · exact absurd hc hdmx
  · exact absurd hc hsync
  · exact hrow

/-- Settles O3, by the row that a word of each format decodes to. -/
theorem tableWordDecodesToItsRow : Obligations.TableWordDecodesToItsRow := by
  refine ⟨fun w => ?command, fun w hw => ?header, fun w hw => ?noHeader, fun w => ?opcode⟩
  case command =>
    exact ⟨decodeTableWord_command_of_mod, decodeTableWord_command_of_mod, decodeTableWord_command_of_mod,
      decodeTableWord_command_of_mod⟩
  case header => rw [decodeTableWord_header, if_pos hw]
  case noHeader => rw [decodeTableWord_header, if_neg hw]
  case opcode =>
    refine ⟨decodeTableWord_opcode_of_mod, decodeTableWord_opcode_of_mod, decodeTableWord_opcode_of_mod,
      decodeTableWord_opcode_of_mod, fun ⟨hpoll, hreply, hdmx, hsync⟩ => ?_⟩
    have hne {k : Nat} (hk : w % 65536 ≠ k % 65536) : BitVec.ofNat 16 w ≠ BitVec.ofNat 16 k :=
      mt (ofNat_eq_ofNat_iff 16 w k).mp hk
    rw [decodeTableWord_opcode, decodeOpcode_of_unknown (hne hpoll) (hne hreply) (hne hdmx) (hne hsync)]

/-! ### A datagram that begins with the identifier and an operation code -/

theorem hasHeader_identifier (lo hi : Byte) (p : List Byte) : hasHeader (artnetIdBytes ++ lo :: hi :: p) = true := by
  simp [hasHeader, artnetIdBytes, identifier]

theorem opcodeIn_identifier (lo hi : Byte) (p : List Byte) :
    opcodeIn (artnetIdBytes ++ lo :: hi :: p) = le16 lo hi := by
  rw [le16_eq]
  rfl

/-- The operation-code row of a code is the route of its class. -/
theorem exec_decodeOpcode (c : Half) (s : State) : exec (decodeOpcode c) s = routeOf (demux c) s := by
  unfold decodeOpcode
  cases demux c <;> rfl

/-- An admitted PROCESS request whose datagram has a whole header runs the row of its operation code. -/
theorem execProcess_of_hasHeader {s : State} {r : Request} {rest : List Request} (hp : s.pending = r :: rest)
    (hwf : r.buf.wf) (hw : within s.params.maxDatagramLen r.len) (hh : hasHeader r.bytes = true) :
    execProcess s = exec (decodeOpcode (opcodeIn r.bytes)) s := by
  rw [execProcess, checkCapacity_within hp hw, processAdmitted, hp, exec_decodeOpcode, demux_eq]
  simp only [classifyFrame_wf hwf, hh, if_true]

/-- Settles O10: the placed datagram has a whole header and the word is its operation code. -/
theorem placedOpcodeWordRunsItsRow : Obligations.PlacedOpcodeWordRunsItsRow := by
  intro s w i hcap hdec
  have hi : decodeOpcode (BitVec.ofNat 16 w) = i := by
    rw [decodeTableWord_opcode] at hdec
    exact Option.some.inj hdec
  have hp := s.withFetchWord_pending 16 w
  have hbytes : (wordRequest 16 w).bytes = artnetIdBytes ++ wordBytes 2 w := processRequest_bytes _
  have hw : within (s.withFetchWord 16 w).params.maxDatagramLen (wordRequest 16 w).len := by
    rwa [← Request.bytes_length, hbytes]
  have hh : hasHeader (wordRequest 16 w).bytes = true := hbytes ▸ hasHeader_identifier _ _ []
  have hcode : opcodeIn (wordRequest 16 w).bytes = BitVec.ofNat 16 w := by
    rw [hbytes, ← le16_ofNat]
    exact opcodeIn_identifier _ _ []
  rw [← hi, ← hcode, ← execProcess_of_hasHeader hp (wordRequest_wf 16 w) hw hh, step_cons hp]
  rfl

/-! ### The DMX request of R65 -/

/-- The two bytes of a length, high byte first, hold its value (R53). -/
theorem lenBytes_value (n : Half) : 256 * (byteAt (lenBytes n) 0).toNat + (byteAt (lenBytes n) 1).toNat = n.toNat := by
  have hn := n.isLt
  simp only [byteAt, lenBytes, List.getD_cons_zero, List.getD_cons_succ, BitVec.extractLsb'_toNat,
    Nat.shiftRight_eq_div_pow]
  omega

section DmxRequest

variable {hi lo seq phys subuni net : Byte} {data : List Byte}

theorem length_dmxPayload : (dmxPayload hi lo seq phys subuni net data).length = 8 + data.length := by
  simp only [dmxPayload, macroLen, lenBytes, List.length_append, List.length_cons, List.length_nil]

/-- The length bytes count the data, as far as sixteen bits can. -/
theorem declaredNat_dmxPayload :
    declaredNat (dmxPayload hi lo seq phys subuni net data) = data.length % 65536 :=
  (lenBytes_value (BitVec.ofNat 16 data.length)).trans (BitVec.toNat_ofNat data.length 16)

theorem dmxRequest_wf : (dmxRequest hi lo seq phys subuni net data).buf.wf := processRequest_wf _

theorem dmxRequest_bytes :
    (dmxRequest hi lo seq phys subuni net data).bytes =
      artnetIdBytes ++ 0x00 :: 0x50 :: dmxPayload hi lo seq phys subuni net data :=
  processRequest_bytes _

theorem len_dmxRequest : (dmxRequest hi lo seq phys subuni net data).len = 18 + data.length := by
  rw [← Request.bytes_length, dmxRequest_bytes, List.length_append, List.length_cons, List.length_cons,
    length_dmxPayload]
  simp only [artnetIdBytes, List.length_cons, List.length_nil]
  omega

theorem drop_dmxRequest_bytes :
    (dmxRequest hi lo seq phys subuni net data).bytes.drop 10 = dmxPayload hi lo seq phys subuni net data := by
  rw [dmxRequest_bytes]
  rfl

/-- PROCESS answers the payload that the DMX request carries. -/
theorem processAnswer_dmxRequest :
    processAnswer (dmxRequest hi lo seq phys subuni net data).bytes =
      payloadAnswer (some dmxRoute) 10 (dmxPayload hi lo seq phys subuni net data) := by
  have hh := hasHeader_identifier 0x00 0x50 (dmxPayload hi lo seq phys subuni net data)
  have hcode : opcodeIn (artnetIdBytes ++ 0x00 :: 0x50 :: dmxPayload hi lo seq phys subuni net data) = 0x5000 :=
    opcodeIn_identifier _ _ _
  rw [processAnswer, drop_dmxRequest_bytes, dmxRequest_bytes, if_pos hh, if_pos hcode]

theorem payloadAnswer_dmxPayload_short (tag : Option Tag) (base : Nat) (h : data.length < 2) :
    payloadAnswer tag base (dmxPayload hi lo seq phys subuni net data) = .decodeError tag .tooShort := by
  have hlen : (dmxPayload hi lo seq phys subuni net data).length < 10 := by
    rw [length_dmxPayload]
    omega
  rw [payloadAnswer, if_pos hlen]

theorem payloadAnswer_dmxPayload (tag : Option Tag) (base : Nat) (h2 : 2 ≤ data.length) (hmax : data.length ≤ 65535) :
    payloadAnswer tag base (dmxPayload hi lo seq phys subuni net data) =
      .record tag (recordIn base (dmxPayload hi lo seq phys subuni net data)) := by
  have hlen : ¬ 8 + data.length < 10 := by omega
  have hdeclared : 8 + data.length = 8 + data.length % 65536 := by omega
  rw [payloadAnswer, length_dmxPayload, declaredNat_dmxPayload, if_neg hlen, if_neg (not_not.mpr hdeclared)]

/-- The window of the Record of a DMX request reads as the request's data. -/
theorem channelData_dmxRequest (tag : Option Tag) (hmax : data.length ≤ 65535) :
    channelData ⟨dmxRequest hi lo seq phys subuni net data,
      .record tag (recordIn 10 (dmxPayload hi lo seq phys subuni net data))⟩ = .ok data := by
  have hdeclared : declaredNat (dmxPayload hi lo seq phys subuni net data) = data.length := by
    rw [declaredNat_dmxPayload]
    omega
  have hdrop : (dmxRequest hi lo seq phys subuni net data).bytes.drop 18 = data := by
    rw [dmxRequest_bytes]
    rfl
  simp only [channelData, recordIn, hdeclared]
  rw [windowBytes_wf dmxRequest_wf _ _ len_dmxRequest.ge, hdrop, List.take_length]

theorem step_dmxRequest {s : State} {rest : List Request}
    (hp : s.pending = dmxRequest hi lo seq phys subuni net data :: rest)
    (hw : within s.params.maxDatagramLen (dmxRequest hi lo seq phys subuni net data).len) :
    step s = .next (answered s (dmxRequest hi lo seq phys subuni net data) rest
      (payloadAnswer (some dmxRoute) 10 (dmxPayload hi lo seq phys subuni net data))) := by
  rw [step_cons hp, ← processAnswer_dmxRequest]
  exact execProcess_wf hp dmxRequest_wf hw

end DmxRequest

/-- Settles O37: the step answers the written payload, and the answer is the Record of its bytes. -/
theorem dmxRequestRoundTrip : Obligations.DmxRequestRoundTrip := by
  intro s rest hi lo seq phys subuni net data r hp hw
  have hstep := step_dmxRequest hp hw
  constructor
  · intro h2 hmax
    rw [payloadAnswer_dmxPayload _ _ h2 hmax] at hstep
    have hdeclared : (recordIn 10 (dmxPayload hi lo seq phys subuni net data)).declaredLength.toNat = data.length := by
      simp only [recordIn, declaredNat_dmxPayload, BitVec.toNat_ofNat]
      omega
    exact ⟨recordIn 10 (dmxPayload hi lo seq phys subuni net data), hstep, rfl, rfl, rfl, rfl, rfl, rfl, hdeclared,
      channelData_dmxRequest _ hmax⟩
  · intro hshort
    rw [hstep, payloadAnswer_dmxPayload_short _ _ hshort]
    rfl

/-! ### The kinds of response each command gives (R62) -/

/-- The step from `s` to `t` answers the request in progress with a response of one of the kinds. -/
def AnswersWithin (kinds : List RespKind) (s t : State) : Prop :=
  ∃ r rest v, s.pending = r :: rest ∧ t = answered s r rest v ∧ kindOf v ∈ kinds

section Kinds

variable {s t : State} {kinds : List RespKind}

theorem answerWith_kinds {f : Request → Except Fault Response} (hf : ∀ r v, f r = .ok v → kindOf v ∈ kinds)
    (h : answerWith s f = .next t) : AnswersWithin kinds s t := by
  obtain ⟨r, rest, v, hp, hv, ht⟩ := answerWith_cases h
  exact ⟨r, rest, v, hp, ht, hf r v hv⟩

theorem answerWith_const_kinds {v : Response} (hv : kindOf v ∈ kinds)
    (h : answerWith s (fun _ => .ok v) = .next t) : AnswersWithin kinds s t :=
  answerWith_kinds (fun _ _ he => by cases he; exact hv) h

theorem classifyResponse_kinds {r : Request} {v : Response} (h : classifyResponse r = .ok v) :
    kindOf v ∈ [RespKind.notArtNet, .frame] := by
  unfold classifyResponse at h
  cases hf : classifyFrame r with
  | error e => simp [hf, bind, Except.bind] at h
  | ok o =>
    cases o <;> simp only [hf, bind, Except.bind, Except.ok.injEq] at h <;> simp [← h, kindOf]

theorem decodePayload_kinds {r : Request} {base M : Nat} {tag : Option Tag} {v : Response}
    (h : decodePayload r base M tag = .ok v) : kindOf v ∈ [RespKind.record, .decodeError] := by
  unfold decodePayload at h
  split at h
  · cases h
    simp [kindOf]
  · cases hsub : readSubHeader r base with
    | error e => simp [hsub, bind, Except.bind] at h
    | ok sub =>
      simp only [hsub, bind, Except.bind] at h
      split at h <;> cases h <;> simp [kindOf]

/-- PROCESS never gives a Frame. -/
theorem routeOf_kinds {c : OpClass} (h : routeOf c s = .next t) : AnswersWithin (kindsOf 0) s t := by
  cases c with
  | poll | pollReply | sync | unknown => exact answerWith_const_kinds (by simp [kindOf, kindsOf]) h
  | dmx =>
    have hsub : [RespKind.record, .decodeError] ⊆ kindsOf 0 := by decide
    exact answerWith_kinds (fun r v hv => hsub (decodePayload_kinds hv)) h

theorem processAdmitted_kinds (h : processAdmitted s = .next t) : AnswersWithin (kindsOf 0) s t := by
  unfold processAdmitted at h
  split at h
  · cases h
  · split at h
    · cases h
    · exact answerWith_const_kinds (by decide) h
    · exact routeOf_kinds h

/-- A command that gives a next state answers with a kind that the tables list for it. -/
theorem exec_decodeCommand_kinds {c : Cmd} (h : exec (decodeCommand c) s = .next t) :
    AnswersWithin (kindsOf c) s t := by
  rcases decodeCommand_cases c with ⟨rfl, hrow⟩ | ⟨rfl, hrow⟩ | ⟨rfl, hrow⟩ | ⟨rfl, hrow⟩ <;> rw [hrow] at h
  · exact processAdmitted_kinds (checkCapacity_cases h)
  · simp only [exec, execClassify] at h
    exact answerWith_kinds (fun r v hv => classifyResponse_kinds hv) (checkCapacity_cases h)
  · simp only [exec, execDecodeArtdmx] at h
    exact answerWith_kinds (fun r v hv => decodePayload_kinds hv) (checkCapacity_cases h)
  · cases h

end Kinds

/-- Settles O18: the request that the command answers is the one in progress. -/
theorem commandProducesItsKinds : Obligations.CommandProducesItsKinds := by
  intro s t r rest hp hstep
  rw [step_cons hp] at hstep
  obtain ⟨q, more, v, hq, rfl, hkind⟩ := exec_decodeCommand_kinds hstep
  obtain ⟨rfl, -⟩ := List.cons.inj (hp.symm.trans hq)
  exact ⟨v, rfl, hkind⟩

/-! ### Sample words, operation classes and the reserved command -/

/-- Settles O4: the decoder is run on each word. -/
theorem sampleWordsDecode : Obligations.SampleWordsDecode :=
  ⟨rfl, rfl, rfl, rfl, rfl, rfl, rfl, rfl, rfl, rfl, rfl⟩

/-- Settles O5, by the five values of DEMUX. -/
theorem opcodeClassIsExact : Obligations.OpcodeClassIsExact := by
  intro c
  rcases demux_cases c with ⟨rfl, h⟩ | ⟨rfl, h⟩ | ⟨rfl, h⟩ | ⟨rfl, h⟩ | ⟨⟨hpoll, hreply, hdmx, hsync⟩, h⟩ <;> rw [h]
  case inr.inr.inr.inr =>
    refine ⟨⟨nofun, (absurd · hpoll)⟩, ⟨nofun, (absurd · hreply)⟩, ⟨nofun, (absurd · hdmx)⟩,
      ⟨nofun, (absurd · hsync)⟩, fun k => ⟨fun hk => ?_, fun ⟨hk, _⟩ => hk ▸ rfl⟩⟩
    exact ⟨(OpClass.unknown.inj hk).symm, hpoll, hreply, hdmx, hsync⟩
  all_goals simp

/-- Settles O19: the command code 0b11 names the row that refuses. -/
theorem reservedCommandIsRefused : Obligations.ReservedCommandIsRefused := by
  refine ⟨fun _ => rfl, fun s r rest hp hcmd => ?_⟩
  rw [step_cons hp, hcmd]
  rfl

/-! ### The numeric codes of a response (R62 to R64, U10) -/

theorem kindOfCode_kindCode (k : RespKind) : kindOfCode (kindCode k) = .ok k := by
  cases k <;> rfl

/-- A class reads back from its code and the operation code that DEMUX gave it for. -/
theorem classOfCode_classCode_demux (c : Half) : classOfCode (classCode (demux c)) c = .ok (demux c) := by
  rcases demux_cases c with ⟨-, h⟩ | ⟨-, h⟩ | ⟨-, h⟩ | ⟨-, h⟩ | ⟨-, h⟩ <;> rw [h] <;> rfl

/-- Settles O40: the codes read back, and the remaining clauses are the values of the tables. -/
theorem responseCodesReadBack : Obligations.ResponseCodesReadBack :=
  ⟨kindOfCode_kindCode, rfl, rfl, rfl, rfl, rfl, rfl, rfl, rfl, classOfCode_classCode_demux,
    fun _ => ⟨rfl, rfl, rfl⟩, fun _ => rfl, rfl, rfl, rfl, rfl, rfl, rfl, rfl, rfl, rfl, rfl⟩

end Sys2Proof.Proofs.EncodingFamily

/-!
PROOFS. The classifier family: what a failed and a passed header check do to the header row, CLASSIFY and PROCESS, the Frame
that CLASSIFY answers, and which bytes its response depends on.
-/

namespace Sys2Proof.Proofs.ClassifierFamily

open Sys2Proof.Machine Sys2Proof.Safety
open Sys2Proof.Proofs.StateFamily (sameResponse_refl)
open Sys2Proof.Proofs.MemoryFamily
open Sys2Proof.Proofs.EncodingFamily

/-- Settles O11, by the outcome of a step on an admitted request. -/
theorem stepAnswersByTheRules : Obligations.StepAnswersByTheRules :=
  fun _ _ _ => step_of_admitted

/-! ### When the header check fails (R68, R69) -/

theorem hasHeader_iff (bs : List Byte) : hasHeader bs = true ↔ 10 ≤ bs.length ∧ bs.take 8 = identifier := by
  simp [hasHeader]

theorem hasHeader_short {bs : List Byte} (h : bs.length < 10) : hasHeader bs = false := by
  simp [hasHeader, h]

theorem headerMatches_short {r : Request} (h : r.len < 10) : headerMatches r = .ok false :=
  if_pos h

/-- Nothing is read after a failed check (R73). -/
theorem classifyFrame_of_noHeader {r : Request} (h : headerMatches r = .ok false) : classifyFrame r = .ok none := by
  simp [classifyFrame, h, bind, Except.bind]

theorem classifyResponse_of_noHeader {r : Request} (h : headerMatches r = .ok false) :
    classifyResponse r = .ok .notArtNet := by
  simp [classifyResponse, classifyFrame_of_noHeader h, bind, Except.bind]

section HeaderCheck

variable {s : State} {r : Request} {rest : List Request}

theorem execArtnetId_of_header (hp : s.pending = r :: rest) (h : headerMatches r = .ok true) :
    execArtnetId s = .next s := by
  simp [execArtnetId, hp, h]

theorem execArtnetId_of_noHeader (hp : s.pending = r :: rest) (h : headerMatches r = .ok false) :
    execArtnetId s = .next (answered s r rest .notArtNet) := by
  simp [execArtnetId, hp, h, answerWith_const hp]

theorem execClassify_of_noHeader (hp : s.pending = r :: rest) (hw : within s.params.maxDatagramLen r.len)
    (h : headerMatches r = .ok false) : execClassify s = .next (answered s r rest .notArtNet) :=
  (checkCapacity_within hp hw).trans (answerWith_ok hp (classifyResponse_of_noHeader h))

theorem execProcess_of_noHeader (hp : s.pending = r :: rest) (hw : within s.params.maxDatagramLen r.len)
    (h : headerMatches r = .ok false) : execProcess s = .next (answered s r rest .notArtNet) := by
  rw [execProcess, checkCapacity_within hp hw, processAdmitted, hp]
  simp only [classifyFrame_of_noHeader h]
  exact answerWith_const hp _

end HeaderCheck

/-- Settles O23: either premise makes the check fail, and then each of the three answers NotArtNet. -/
theorem badHeaderIsNotArtNet : Obligations.BadHeaderIsNotArtNet := by
  intro s r rest hp hbad
  have hfail : headerMatches r = .ok false := by
    rcases hbad with hshort | ⟨hwf, hid⟩
    · exact headerMatches_short hshort
    · have hno : hasHeader r.bytes = false :=
        Bool.eq_false_iff.mpr fun hh => hid ((hasHeader_iff r.bytes).mp hh).2
      rw [headerMatches_wf hwf, hno]
  exact ⟨execArtnetId_of_noHeader hp hfail,
    fun hw => ⟨execClassify_of_noHeader hp hw hfail, execProcess_of_noHeader hp hw hfail⟩⟩

/-- Settles O24: the check passes on a whole header that begins with the identifier. -/
theorem goodHeaderPassesTheHeaderRow : Obligations.GoodHeaderPassesTheHeaderRow := by
  intro s r rest hp hwf hlen hid
  have hh : hasHeader r.bytes = true := (hasHeader_iff r.bytes).mpr ⟨by simpa using hlen, hid⟩
  exact execArtnetId_of_header hp (hh ▸ headerMatches_wf hwf)

/-! ### PROCESS and the rows of its datagram (R68, R72, R89) -/

/-- The decoder of the header format rejects only bytes without a whole header. -/
theorem hasHeader_of_decode_error {bs : List Byte} {e : Reject} (h : decode .header10 bs = .error e) :
    hasHeader bs = false := by
  refine Bool.eq_false_iff.mpr fun hh => ?_
  obtain ⟨hlen, hid⟩ := (hasHeader_iff bs).mp hh
  have hok : decode .header10 bs = .ok (.artnetId, bs.drop 8) := by
    rw [decode_header10, if_neg (by omega)]
    exact if_pos hid
  rw [hok] at h
  cases h

/-- Settles O9: a datagram that decodes as both rows has a whole header and carries the code of its second row. -/
theorem processRunsTheRowsOfItsDatagram : Obligations.ProcessRunsTheRowsOfItsDatagram := by
  intro s r rest hp hwf hcmd hw
  have hstep : step s = execProcess s := by
    rw [step_cons hp, hcmd]
    rfl
  rw [hstep]
  refine ⟨fun i more hheader hcode => ?_, fun e hreject => ?_⟩
  · obtain ⟨-, hbytes⟩ := decode_header10_cases hheader
    obtain ⟨lo, hi, hmore, rfl⟩ := decode_opCode16_cases hcode
    rw [hmore] at hbytes
    have hh : hasHeader r.bytes = true := by
      rw [hbytes]
      exact hasHeader_identifier lo hi _
    have hopcode : opcodeIn r.bytes = le16 lo hi := by
      rw [hbytes]
      exact opcodeIn_identifier lo hi _
    refine ⟨execArtnetId_of_header hp (hh ▸ headerMatches_wf hwf), ?_⟩
    rw [execProcess_of_hasHeader hp hwf hw hh, hopcode]
  · have hfail : headerMatches r = .ok false := hasHeader_of_decode_error hreject ▸ headerMatches_wf hwf
    rw [execProcess_of_noHeader hp hw hfail]
    exact (execArtnetId_of_noHeader hp hfail).symm

/-! ### The answer of CLASSIFY and its payload window (R67, R70) -/

theorem opcodeIn_eq_append (bs : List Byte) : opcodeIn bs = byteAt bs 9 ++ byteAt bs 8 :=
  (le16_eq (byteAt bs 8) (byteAt bs 9)).symm

theorem classifyAnswer_of_noHeader {bs : List Byte} (h : hasHeader bs = false) : classifyAnswer bs = .notArtNet := by
  simp [classifyAnswer, h]

/-- Over a canonical buffer, or below ten bytes over any, CLASSIFY gives the rules' answer to its bytes. -/
theorem execClassify_eq_classifyAnswer {s : State} {r : Request} {rest : List Request} (hp : s.pending = r :: rest)
    (hbuf : r.len < 10 ∨ r.buf.wf) (hw : within s.params.maxDatagramLen r.len) :
    execClassify s = .next (answered s r rest (classifyAnswer r.bytes)) := by
  rcases hbuf with hshort | hwf
  · rw [classifyAnswer_of_noHeader (hasHeader_short (by simpa using hshort))]
    exact execClassify_of_noHeader hp hw (headerMatches_short hshort)
  · exact execClassify_wf hp hwf hw

/-- Settles O22: the rules' answer, with the check and the operation code written out. -/
theorem classifyAnswersFrameOrNotArtNet : Obligations.ClassifyAnswersFrameOrNotArtNet := by
  intro s r rest hp hbuf hw
  refine (execClassify_eq_classifyAnswer hp hbuf hw).trans ?_
  simp only [classifyAnswer, hasHeader_iff, opcodeIn_eq_append, Request.bytes_length, identifier]

/-- A Frame is the rules' answer only with the payload window from offset 10 to the end of at least ten bytes. -/
theorem payload_of_classifyAnswer_eq_frame {bs : List Byte} {f : Frame} (h : classifyAnswer bs = .frame f) :
    10 ≤ bs.length ∧ f.payloadOff = 10 ∧ f.payloadLen = bs.length - 10 := by
  unfold classifyAnswer at h
  split_ifs at h with hh
  cases h
  exact ⟨hasHeader_length hh, rfl, rfl⟩

/-- A window from an offset to the end of a canonical buffer reads as the rest of its bytes. -/
theorem windowBytes_to_end {r : Request} (hwf : r.buf.wf) {off : Nat} (h : off ≤ r.len) :
    windowBytes r off (r.len - off) = .ok (r.bytes.drop off) := by
  rw [windowBytes_wf hwf _ _ (by omega), List.take_of_length_le (by simp)]

/-- Settles O25: the Frame is the rules' answer to the request in progress, and its window lies in the buffer. -/
theorem framePayloadIsTheRestOfTheDatagram : Obligations.FramePayloadIsTheRestOfTheDatagram := by
  intro s t r rest f hp hwf hexec hanswers
  simp only [exec, execClassify] at hexec
  obtain ⟨q, more, v, hq, hv, rfl⟩ := answerWith_cases (checkCapacity_cases hexec)
  obtain ⟨rfl, -⟩ := List.cons.inj (hp.symm.trans hq)
  have hvf : v = .frame f := by simpa using hanswers
  have hframe : classifyAnswer r.bytes = .frame f := by
    rw [classifyResponse_wf hwf, hvf] at hv
    exact Except.ok.inj hv
  obtain ⟨hlen, hoff, hplen⟩ := payload_of_classifyAnswer_eq_frame hframe
  rw [Request.bytes_length] at hlen hplen
  refine ⟨hoff, hplen, ?_⟩
  simp only [framePayload, hoff, hplen]
  exact windowBytes_to_end hwf hlen

/-! ### What the response of CLASSIFY depends on (R71, R73) -/

section SameHeader

variable {r q : Request} (hlen : r.len = q.len) (hread : ∀ a, a < 10 → Memory.read r.buf a = Memory.read q.buf a)

include hlen hread

theorem memRead_congr {a : Nat} (ha : a < 10) : memRead r a = memRead q a := by
  simp only [memRead, hlen, hread a ha]

theorem idMatches_congr (ids : List Byte) (a : Nat) (ha : a + ids.length ≤ 10) :
    idMatches r a ids = idMatches q a ids := by
  induction ids generalizing a with
  | nil => rfl
  | cons b ids ih =>
    rw [List.length_cons] at ha
    simp only [idMatches, memRead_congr hlen hread (show a < 10 by omega), ih (a + 1) (by omega)]

theorem headerMatches_congr : headerMatches r = headerMatches q := by
  simp only [headerMatches, hlen, idMatches_congr hlen hread artnetIdBytes 0 (by decide)]

theorem readOpcode_congr : readOpcode r = readOpcode q := by
  simp only [readOpcode, opcodeOff, memRead_congr hlen hread (show 8 < 10 by decide),
    memRead_congr hlen hread (show 8 + 1 < 10 by decide)]

theorem classifyResponse_congr : classifyResponse r = classifyResponse q := by
  simp only [classifyResponse, classifyFrame, headerMatches_congr hlen hread, readOpcode_congr hlen hread, hlen]

end SameHeader

/-- Requests to which `f` gives the same are answered alike. -/
theorem answerWith_sameResponse_of_eq {s u : State} {r q : Request} {rest more : List Request}
    {f : Request → Except Fault Response} (hs : s.pending = r :: rest) (hu : u.pending = q :: more)
    (hf : f r = f q) : SameResponse (answerWith s f) (answerWith u f) := by
  cases hq : f q with
  | error e => simp [answerWith, hs, hu, hf, hq, SameResponse]
  | ok v => simp [answerWith_ok hs (hf.trans hq), answerWith_ok hu hq, SameResponse]

/-- Settles O26: admission looks at the length, and the classifier reads at the addresses 0 to 9 only. -/
theorem classifyDependsOnHeaderAlone : Obligations.ClassifyDependsOnHeaderAlone := by
  intro s u r q rest more hparams hs hu hlen hread
  change SameResponse (execClassify s) (execClassify u)
  by_cases hw : within s.params.maxDatagramLen r.len
  · have hwu : within u.params.maxDatagramLen q.len := by rwa [← hparams, ← hlen]
    rw [execClassify, execClassify, checkCapacity_within hs hw, checkCapacity_within hu hwu]
    exact answerWith_sameResponse_of_eq hs hu (classifyResponse_congr hlen hread)
  · have hwu : ¬ within u.params.maxDatagramLen q.len := by rwa [← hparams, ← hlen]
    rw [execClassify_of_not_within hs hw, execClassify_of_not_within hu hwu]
    exact sameResponse_refl _

end Sys2Proof.Proofs.ClassifierFamily

/-!
PROOFS. The decoder family: the answer of the payload decoder to the command and to the Dmx route, when it is a Record and
what a Record holds, and PROCESS as CLASSIFY followed by the decoder.
-/

namespace Sys2Proof.Proofs.DecoderFamily

open Sys2Proof.Machine Sys2Proof.Safety
open Sys2Proof.Proofs.MemoryFamily
open Sys2Proof.Proofs.ClassifierFamily (payload_of_classifyAnswer_eq_frame windowBytes_to_end)

/-! ### The answer of the decoder (R74 to R78) -/

/-- The sub-header that the bytes hold from an offset on. -/
def subHeaderAt (bs : List Byte) (base : Nat) : SubHeader :=
  { protVerHi := byteAt bs (base + 0), protVerLo := byteAt bs (base + 1)
    sequence := byteAt bs (base + 2), physical := byteAt bs (base + 3)
    subUni := byteAt bs (base + 4), net := byteAt bs (base + 5)
    lengthHi := byteAt bs (base + 6), lengthLo := byteAt bs (base + 7) }

theorem readSubHeader_eq_subHeaderAt {r : Request} (hwf : r.buf.wf) {base : Nat} (h : base + 8 ≤ r.len) :
    readSubHeader r base = .ok (subHeaderAt r.bytes base) := by
  simp only [readSubHeader_wf hwf h, byteAt_drop, subHeaderAt]

theorem decodePayload_of_short {r : Request} {base M : Nat} {tag : Option Tag} (h : M < 10) :
    decodePayload r base M tag = .ok (.decodeError tag .tooShort) :=
  if_pos h

/-- Over a canonical buffer the decoder answers by the length and the sub-header of its payload alone. -/
theorem decodePayload_eq {r : Request} (hwf : r.buf.wf) {base M : Nat} (hM : base + M ≤ r.len) (tag : Option Tag) :
    decodePayload r base M tag = .ok
      (if M < 10 then .decodeError tag .tooShort
      else if M - 8 ≠ (declaredLengthOf (subHeaderAt r.bytes base)).toNat then .decodeError tag .lengthMismatch
      else .record tag (recordOf (subHeaderAt r.bytes base) base)) := by
  by_cases hshort : M < 10
  · rw [decodePayload_of_short hshort, if_pos hshort]
  · have hsub := readSubHeader_eq_subHeaderAt hwf (base := base) (by omega)
    simp only [decodePayload, minDmxPayload, subhdrLen, if_neg hshort, hsub, bind, Except.bind]
    exact (apply_ite Except.ok _ _ _).symm

section Commands

variable {s : State} {r : Request} {rest : List Request} {v : Response}

/-- Within its capacity the command gives the decoder's answer to the whole buffer. -/
theorem execDecodeArtdmx_of_answer (hp : s.pending = r :: rest) (hw : within s.params.maxPayloadLen r.len)
    (hv : decodePayload r 0 r.len none = .ok v) : execDecodeArtdmx s = .next (answered s r rest v) := by
  rw [execDecodeArtdmx, checkCapacity_within hp hw]
  exact answerWith_ok hp hv

/-- The Dmx route gives the decoder's answer to the bytes from offset 10 on. -/
theorem execOpDmx_of_answer (hp : s.pending = r :: rest)
    (hv : decodePayload r 10 (r.len - 10) (some dmxTag) = .ok v) : execOpDmx s = .next (answered s r rest v) :=
  answerWith_ok hp hv

end Commands

/-- Settles O27: the command decodes the whole buffer, the Dmx route the bytes from offset 10 on. -/
theorem payloadDecoderAnswers : Obligations.PayloadDecoderAnswers := by
  intro s r rest hp hwf p N answer
  constructor
  · intro hw
    exact execDecodeArtdmx_of_answer hp hw (decodePayload_eq hwf (Nat.zero_add r.len).le none)
  · intro h10
    exact execOpDmx_of_answer hp (decodePayload_eq hwf (Nat.add_sub_of_le h10).le (some dmxTag))

/-- Settles O28: the decoder reads nothing below ten bytes. -/
theorem tooShortDecidesAlone : Obligations.TooShortDecidesAlone := by
  intro s r rest hp
  constructor
  · intro hw hshort
    exact execDecodeArtdmx_of_answer hp hw (decodePayload_of_short hshort)
  · intro hshort
    exact execOpDmx_of_answer hp (decodePayload_of_short hshort)

/-! ### When the answer is a Record (R85) -/

theorem answered_inj {s : State} {r : Request} {rest : List Request} {v w : Response} :
    answered s r rest v = answered s r rest w ↔ v = w := by
  simp [answered]

theorem payloadAnswer_eq_record_iff {tag tag' : Option Tag} {base : Nat} {p : List Byte} {d : Record} :
    payloadAnswer tag base p = .record tag' d ↔
      (10 ≤ p.length ∧ p.length = 8 + declaredNat p) ∧ tag = tag' ∧ recordIn base p = d := by
  unfold payloadAnswer
  split_ifs with hshort hlen
  · simp [Nat.not_le.mpr hshort]
  · simp [hlen]
  · rw [Response.record.injEq, iff_and_self]
    exact fun _ => ⟨Nat.not_lt.mp hshort, not_not.mp hlen⟩

/-- Ten bytes or more cannot match a declared length below two. -/
theorem payloadAnswer_of_declaredNat_le_one {tag : Option Tag} {base : Nat} {p : List Byte} (h : declaredNat p ≤ 1) :
    payloadAnswer tag base p = .decodeError tag (if p.length < 10 then .tooShort else .lengthMismatch) := by
  unfold payloadAnswer
  split_ifs with hshort hlen
  · rfl
  · rfl
  · omega

theorem recordIn_declaredLength_toNat (base : Nat) (p : List Byte) :
    (recordIn base p).declaredLength.toNat = declaredNat p := by
  have hhi := (byteAt p 6).isLt
  have hlo := (byteAt p 7).isLt
  simp only [recordIn, declaredNat, BitVec.toNat_ofNat]
  omega

/-- Settles O29, by when the rules' answer to a payload is a Record. -/
theorem recordExactlyWhenLengthMatches : Obligations.RecordExactlyWhenLengthMatches := by
  intro s r rest hp hwf hw
  have hexec : exec .decodeArtdmx s = .next (answered s r rest (payloadAnswer none 0 r.bytes)) :=
    execDecodeArtdmx_wf hp hwf hw
  have hrecord (tag d) : exec .decodeArtdmx s = .next (answered s r rest (.record tag d)) ↔
      (10 ≤ r.len ∧ r.len = 8 + declaredNat r.bytes) ∧ none = tag ∧ recordIn 0 r.bytes = d := by
    rw [hexec, Host.Outcome.next.injEq, answered_inj, payloadAnswer_eq_record_iff, Request.bytes_length]
  refine ⟨?_, ?_, ?_⟩
  · simp only [hrecord, exists_and_left, exists_eq', and_true]
  · intro tag d h
    obtain ⟨⟨h10, hlen⟩, -, rfl⟩ := (hrecord tag d).mp h
    rw [recordIn_declaredLength_toNat]
    omega
  · intro hdeclared
    rw [hexec, payloadAnswer_of_declaredNat_le_one hdeclared, Request.bytes_length]

/-! ### Where a Record comes from, in every state -/

/-- Everything that the decoder can do when it gives a Record, over any buffer. -/
theorem decodePayload_record_cases {r : Request} {base M : Nat} {tag tag' : Option Tag} {d : Record}
    (h : decodePayload r base M tag = .ok (.record tag' d)) :
    10 ≤ M ∧ tag' = tag ∧ ∃ sub, M - 8 = (declaredLengthOf sub).toNat ∧ d = recordOf sub base := by
  unfold decodePayload at h
  split at h
  · cases h
  · next hshort =>
    cases hsub : readSubHeader r base with
    | error e => simp [hsub, bind, Except.bind] at h
    | ok sub =>
      simp only [hsub, bind, Except.bind] at h
      split at h
      · cases h
      · next hlen =>
        cases h
        exact ⟨Nat.not_lt.mp hshort, rfl, sub, not_not.mp hlen, rfl⟩

/-- The step from `s` to `t` answers the request in progress, with no Record but the one that the decoder gives for the
bytes from `base` on. -/
def RecordsFrom (base : Nat) (tag : Option Tag) (s t : State) : Prop :=
  ∃ r rest v, s.pending = r :: rest ∧ t = answered s r rest v ∧
    (kindOf v = .record → decodePayload r base (r.len - base) tag = .ok v)

section Records

variable {s t : State} {base : Nat} {tag : Option Tag}

theorem answerWith_decodePayload_recordsFrom
    (h : answerWith s (fun r => decodePayload r base (r.len - base) tag) = .next t) : RecordsFrom base tag s t := by
  obtain ⟨r, rest, v, hp, hv, ht⟩ := answerWith_cases h
  exact ⟨r, rest, v, hp, ht, fun _ => hv⟩

theorem answerWith_const_recordsFrom {v : Response} (hv : kindOf v ≠ .record)
    (h : answerWith s (fun _ => .ok v) = .next t) : RecordsFrom base tag s t := by
  obtain ⟨r, rest, w, hp, hw, ht⟩ := answerWith_cases h
  cases hw
  exact ⟨r, rest, v, hp, ht, fun hk => absurd hk hv⟩

theorem routeOf_recordsFrom {c : OpClass} (h : routeOf c s = .next t) : RecordsFrom 10 (some dmxTag) s t := by
  cases c with
  | dmx => exact answerWith_decodePayload_recordsFrom h
  | poll | pollReply | sync | unknown => exact answerWith_const_recordsFrom (by simp [kindOf]) h

theorem processAdmitted_recordsFrom (h : processAdmitted s = .next t) : RecordsFrom 10 (some dmxTag) s t := by
  unfold processAdmitted at h
  split at h
  · cases h
  · split at h
    · cases h
    · exact answerWith_const_recordsFrom (by simp [kindOf]) h
    · exact routeOf_recordsFrom h

/-- The offset of the payload that an instruction decodes. -/
def payloadBase (i : Instr) : Nat := if i = .decodeArtdmx then 0 else 10

/-- What the responses of an instruction carry beside the decoder's answer. -/
def payloadTag (i : Instr) : Option Tag := if i = .decodeArtdmx then none else some dmxTag

theorem exec_recordsFrom {i : Instr} (hi : i = .decodeArtdmx ∨ i = .opDmx ∨ i = .process)
    (h : exec i s = .next t) : RecordsFrom (payloadBase i) (payloadTag i) s t := by
  rcases hi with rfl | rfl | rfl
  · simp only [exec, execDecodeArtdmx] at h
    exact answerWith_decodePayload_recordsFrom (checkCapacity_cases h)
  · exact routeOf_recordsFrom (c := .dmx) h
  · exact processAdmitted_recordsFrom (checkCapacity_cases h)

/-- Everything that the three decoding instructions can do when they give a Record. -/
theorem exec_record_cases {i : Instr} {r : Request} {tag : Option Tag} {d : Record}
    (hi : i = .decodeArtdmx ∨ i = .opDmx ∨ i = .process) (h : exec i s = .next t)
    (hanswers : t.answers = s.answers ++ [⟨r, .record tag d⟩]) :
    10 ≤ r.len - payloadBase i ∧ tag = payloadTag i ∧
      ∃ sub, r.len - payloadBase i - 8 = (declaredLengthOf sub).toNat ∧ d = recordOf sub (payloadBase i) := by
  obtain ⟨q, rest, v, -, rfl, hv⟩ := exec_recordsFrom hi h
  obtain ⟨rfl, rfl⟩ : q = r ∧ v = .record tag d := by simpa [answered] using hanswers
  exact decodePayload_record_cases (hv rfl)

end Records

/-! ### What a Record holds (R79 to R83) -/

theorem absoluteUniverseOf_toNat (net subUni : Byte) :
    (absoluteUniverseOf net subUni).toNat = net.toNat * 256 + subUni.toNat := by
  have hnet := net.isLt
  have hsub := subUni.isLt
  rw [absoluteUniverseOf, BitVec.toNat_ofNat]
  omega

theorem absoluteUniverseOf_eq_append (net subUni : Byte) : absoluteUniverseOf net subUni = net ++ subUni := by
  apply BitVec.eq_of_toNat_eq
  rw [absoluteUniverseOf_toNat, Nat.mul_comm]
  exact (be16_toNat net subUni).symm

theorem universeHiOf_append_subUniLoOf (b : Byte) : universeHiOf b ++ subUniLoOf b = b := by
  revert b
  decide

/-- Settles O30: every Record is made by `recordOf`, whatever the buffer. -/
theorem recordDerivationsAreExact : Obligations.RecordDerivationsAreExact := by
  intro i s t ⟨r, v⟩ tag d hi h hanswers hv
  cases hv
  obtain ⟨-, -, sub, -, rfl⟩ := exec_record_cases hi h hanswers
  exact ⟨absoluteUniverseOf_toNat _ _, absoluteUniverseOf_eq_append _ _, universeHiOf_append_subUniLoOf _⟩

/-- Settles O31: the length check makes the data window the one from the end of the sub-header to the end of the buffer. -/
theorem channelDataIsTheDeclaredBytes : Obligations.ChannelDataIsTheDeclaredBytes := by
  intro i s t r rest tag d _ hwf hi h hanswers
  obtain ⟨h10, htag, sub, hlen, rfl⟩ := exec_record_cases hi h hanswers
  have hoff : (recordOf sub (payloadBase i)).dataOff = payloadBase i + 8 := rfl
  have hdata : (recordOf sub (payloadBase i)).dataLen = r.len - (payloadBase i + 8) := by
    rw [← Nat.sub_sub]
    exact hlen.symm
  refine ⟨?_, htag, ?_, rfl, ?_⟩
  · rw [hoff, payloadBase]
    split <;> rfl
  · simp only [channelData, hdata, hoff]
    exact windowBytes_to_end hwf (by omega)
  · rw [hoff, List.length_drop, Request.bytes_length]
    exact hdata.symm

/-! ### PROCESS as CLASSIFY and the decoder (R89, R95 to R97) -/

/-- A command that refuses wherever `P` fails has `P` where it gives a next state. -/
theorem of_next_of_refused {P : Prop} {x : Result} {t : State} {why : Refusal} (hrefused : ¬ P → x = .refused why)
    (h : x = .next t) : P := by
  by_contra hP
  rw [hrefused hP] at h
  cases h

theorem classOf_eq_dmx_iff (c : Half) : classOf c = .dmx ↔ c = 0x5000 := by
  rw [← demux_eq]
  rcases demux_cases c with ⟨rfl, h⟩ | ⟨rfl, h⟩ | ⟨rfl, h⟩ | ⟨rfl, h⟩ | ⟨⟨-, -, hdmx, -⟩, h⟩ <;> rw [h]
  case inr.inr.inr.inr => exact ⟨nofun, fun hc => absurd hc hdmx⟩
  all_goals decide

/-- A Frame of class Dmx is the rules' answer only to a whole header with the operation code 0x5000. -/
theorem header_of_classifyAnswer_eq_dmx {bs : List Byte} {f : Frame} (h : classifyAnswer bs = .frame f)
    (hdmx : f.opClass = .dmx) : hasHeader bs = true ∧ opcodeIn bs = 0x5000 := by
  unfold classifyAnswer at h
  split_ifs at h with hh
  cases h
  exact ⟨hh, (classOf_eq_dmx_iff _).mp hdmx⟩

/-- The answer to a payload does not depend on where it stands, but for the data window and the tag. -/
theorem underProcess_payloadAnswer (p : List Byte) :
    underProcess (payloadAnswer none 0 p) = payloadAnswer (some dmxRoute) 10 p := by
  unfold payloadAnswer
  split_ifs <;> rfl

theorem processAnswer_of_classifyAnswer_eq_dmx {bs : List Byte} {f : Frame} (h : classifyAnswer bs = .frame f)
    (hdmx : f.opClass = .dmx) : processAnswer bs = underProcess (payloadAnswer none 0 (bs.drop f.payloadOff)) := by
  obtain ⟨hh, hcode⟩ := header_of_classifyAnswer_eq_dmx h hdmx
  obtain ⟨-, hoff, -⟩ := payload_of_classifyAnswer_eq_frame h
  rw [processAnswer, if_pos hh, if_pos hcode, hoff, underProcess_payloadAnswer]

/-- Settles O36: both commands were within their capacities, and PROCESS gives the decoder's answer moved by ten. -/
theorem processIsClassifyThenDecode : Obligations.ProcessIsClassifyThenDecode := by
  intro s t r rest f hp hwf hclassify hdmx hdecode
  have hw := of_next_of_refused (execClassify_of_not_within hp) hclassify
  have hframe : classifyAnswer r.bytes = .frame f :=
    answered_inj.mp (Host.Outcome.next.inj ((execClassify_wf hp hwf hw).symm.trans hclassify))
  have hwp := of_next_of_refused (execDecodeArtdmx_of_not_within rfl) hdecode
  have hanswer := execDecodeArtdmx_wf rfl (decodeRequest_wf _) hwp
  rw [decodeRequest_bytes] at hanswer
  refine ⟨payloadAnswer none 0 (r.bytes.drop f.payloadOff), Host.Outcome.next.inj (hdecode.symm.trans hanswer), ?_⟩
  rw [← processAnswer_of_classifyAnswer_eq_dmx hframe hdmx]
  exact execProcess_wf hp hwf hw

end Sys2Proof.Proofs.DecoderFamily

/-!
PROOFS. The dispatch family: the routes that read no payload, the answer of PROCESS by route, and when that answer is a
Record.
-/

namespace Sys2Proof.Proofs.DispatchFamily

open Sys2Proof.Machine Sys2Proof.Safety
open Sys2Proof.Laws.DecodeEncode (le16_opBytes)
open Sys2Proof.Proofs.MemoryFamily
open Sys2Proof.Proofs.EncodingFamily (hasHeader_identifier opcodeIn_identifier)
open Sys2Proof.Proofs.ClassifierFamily (hasHeader_iff)
open Sys2Proof.Proofs.DecoderFamily (answered_inj payloadAnswer_eq_record_iff)

/-- Settles O32, by the outcome of an admitted PROCESS over a canonical buffer. -/
theorem processAnswersByRoute : Obligations.ProcessAnswersByRoute :=
  fun _ _ _ => execProcess_wf

/-! ### The routes that read no payload (R91 to R94) -/

/-- Settles O34: each route gives a constant response. -/
theorem acknowledgingRoutes : Obligations.AcknowledgingRoutes :=
  fun _ _ _ hp => ⟨answerWith_const hp _, answerWith_const hp _, answerWith_const hp _⟩

/-- Settles O35: the response is made from the code alone. -/
theorem unknownRouteGivesTheCode : Obligations.UnknownRouteGivesTheCode :=
  fun _ _ _ _ hp => answerWith_const hp _

/-! ### A whole header with its operation code, as ten bytes (R48 to R50) -/

theorem take_two_drop_eight {bs : List Byte} (h : 10 ≤ bs.length) :
    (bs.drop 8).take 2 = opBytes (opcodeIn bs) := by
  have hcode : opcodeIn bs = le16 (byteAt bs 8) (byteAt bs 9) := (le16_eq _ _).symm
  rw [hcode, opBytes_le16, byteAt_getElem (by omega), byteAt_getElem (by omega),
    List.drop_eq_getElem_cons (by omega), List.drop_eq_getElem_cons (by omega)]
  rfl

/-- The first ten bytes spell the identifier and a code exactly when the datagram has a whole header with that code. -/
theorem take_ten_eq_header_iff {bs : List Byte} {c : Half} :
    bs.take 10 = artnetIdBytes ++ opBytes c ↔ hasHeader bs = true ∧ opcodeIn bs = c := by
  constructor
  · intro h
    have hbs : bs = artnetIdBytes ++ c.extractLsb' 0 8 :: c.extractLsb' 8 8 :: bs.drop 10 := by
      conv_lhs => rw [← List.take_append_drop 10 bs, h]
      rfl
    rw [hbs]
    exact ⟨hasHeader_identifier _ _ _, (opcodeIn_identifier _ _ _).trans (le16_opBytes c)⟩
  · rintro ⟨hh, rfl⟩
    obtain ⟨hlen, hid⟩ := (hasHeader_iff bs).mp hh
    rw [← take_two_drop_eight hlen, List.take_add (i := 8) (j := 2), hid]
    rfl

/-! ### When the answer of PROCESS is a Record (R95 to R98) -/

/-- The declared length of a datagram's payload stands in the bytes 16 and 17. -/
theorem declaredNat_drop_ten (bs : List Byte) :
    declaredNat (bs.drop 10) = 256 * (byteAt bs 16).toNat + (byteAt bs 17).toNat := by
  simp only [declaredNat, byteAt_drop]

/-- PROCESS takes the Dmx route for the datagram: it has a whole header, and the header carries the Dmx code. -/
def IsDmx (bs : List Byte) : Prop := hasHeader bs = true ∧ opcodeIn bs = 0x5000

theorem isDmx_iff_take_ten {bs : List Byte} : IsDmx bs ↔ bs.take 10 = artnetIdBytes ++ opBytes opDmxCode :=
  take_ten_eq_header_iff.symm

theorem processAnswer_of_dmx {bs : List Byte} (h : IsDmx bs) :
    processAnswer bs = payloadAnswer (some dmxRoute) 10 (bs.drop 10) := by
  obtain ⟨hh, hcode⟩ := h
  rw [processAnswer, if_pos hh, if_pos hcode]

/-- No route but the Dmx route gives a Record. -/
theorem isDmx_of_processAnswer_eq_record {bs : List Byte} {tag : Option Tag} {d : Record}
    (h : processAnswer bs = .record tag d) : IsDmx bs := by
  unfold processAnswer at h
  split_ifs at h with hh hcode
  exact ⟨hh, hcode⟩

theorem exists_processAnswer_eq_record_iff {bs : List Byte} :
    (∃ tag d, processAnswer bs = .record tag d) ↔
      IsDmx bs ∧ 20 ≤ bs.length ∧ bs.length = 18 + declaredNat (bs.drop 10) := by
  constructor
  · rintro ⟨tag, d, h⟩
    have hdmx := isDmx_of_processAnswer_eq_record h
    rw [processAnswer_of_dmx hdmx, payloadAnswer_eq_record_iff, List.length_drop] at h
    obtain ⟨⟨h10, hlen⟩, -⟩ := h
    exact ⟨hdmx, by omega, by omega⟩
  · rintro ⟨hdmx, h20, hlen⟩
    refine ⟨some dmxRoute, recordIn 10 (bs.drop 10), ?_⟩
    rw [processAnswer_of_dmx hdmx, payloadAnswer_eq_record_iff, List.length_drop]
    exact ⟨⟨by omega, by omega⟩, rfl, rfl⟩

theorem processAnswer_of_dmx_short {bs : List Byte} (h : IsDmx bs)
    (hlen : bs.length ≤ 19) : processAnswer bs = .decodeError (some dmxRoute) .tooShort := by
  have hshort : (bs.drop 10).length < 10 := by rw [List.length_drop]; omega
  rw [processAnswer_of_dmx h, payloadAnswer, if_pos hshort]

theorem processAnswer_of_dmx_mismatch {bs : List Byte} (h : IsDmx bs)
    (h20 : 20 ≤ bs.length) (hlen : bs.length ≠ 18 + declaredNat (bs.drop 10)) :
    processAnswer bs = .decodeError (some dmxRoute) .lengthMismatch := by
  have hlong : ¬ (bs.drop 10).length < 10 := by rw [List.length_drop]; omega
  have hne : (bs.drop 10).length ≠ 8 + declaredNat (bs.drop 10) := by rw [List.length_drop]; omega
  rw [processAnswer_of_dmx h, payloadAnswer, if_neg hlong, if_pos hne]

/-- Settles O33: PROCESS gives the rules' answer, and the ten bytes spell a whole header with the Dmx code. -/
theorem processRecordAtDatagramLevel : Obligations.ProcessRecordAtDatagramLevel := by
  intro s r rest hp hwf hw N Dmx
  have hprocess := processAnswersByRoute s r rest hp hwf hw
  have hexec (v) : exec .process s = .next (answered s r rest v) ↔ processAnswer r.bytes = v := by
    rw [hprocess, Host.Outcome.next.injEq, answered_inj]
  have hN : declaredNat (r.bytes.drop 10) = N := declaredNat_drop_ten r.bytes
  have hDmx : Dmx ↔ IsDmx r.bytes := isDmx_iff_take_ten.symm
  simp only [hexec, hDmx, ← hN, ← Request.bytes_length]
  exact ⟨exists_processAnswer_eq_record_iff, processAnswer_of_dmx_short, processAnswer_of_dmx_mismatch⟩

end Sys2Proof.Proofs.DispatchFamily

/-!
PROOFS. The exception family: which requests the step refuses and by which name, the run of all pending requests, and the
block's state once a response is taken.
-/

namespace Sys2Proof.Proofs.ExceptionFamily

open Sys2Proof.Machine Sys2Proof.Safety
open Sys2Proof.Proofs.StateFamily (routeOf_eq_answerWith take_of_answers_cons)
open Sys2Proof.Proofs.MemoryFamily

/-! ### What a step does to a run -/

section Run

variable {M : Host.Core} {s t : M.State}

theorem run_succ_of_next (h : M.step s = .next t) (k : Nat) : M.run (k + 1) s = M.run k t := by
  simp only [Host.Core.run, h]

theorem run_succ_of_refused {why : M.Refusal} (h : M.step s = .refused why) (k : Nat) :
    M.run (k + 1) s = .refused why := by
  simp only [Host.Core.run, h]

end Run

theorem refusedForGood_of_step {s : State} {why : Refusal} (h : step s = .refused why) : RefusedForGood s why :=
  ⟨h, run_succ_of_refused (M := core) h⟩

/-! ### The run of all pending requests (R112) -/

/-- Settles O12, by induction on the queue: the first step answers the oldest request, and the run of the others begins
in the state it leaves. -/
theorem runAnswersRequestsInOrder : Obligations.RunAnswersRequestsInOrder := by
  intro s hs
  induction hp : s.pending generalizing s with
  | nil =>
    have hidle : s = { s with pending := [], answers := s.answers ++ [] } := by simp [← hp]
    exact ⟨[], congrArg Host.Outcome.next hidle, rfl, nofun⟩
  | cons r rest ih =>
    rw [hp, List.forall_mem_cons] at hs
    obtain ⟨⟨hwf, hadm⟩, hrest⟩ := hs
    obtain ⟨v, hv, hstep⟩ := step_of_admitted hp hwf hadm
    obtain ⟨ts, hrun, hrequests, hanswers⟩ := ih (answered s r rest v) hrest rfl
    refine ⟨⟨r, v⟩ :: ts, ?_, ?_, ?_⟩
    · rw [List.length_cons, run_succ_of_next (M := core) hstep, hrun]
      simp [answered]
    · rw [List.map_cons, hrequests]
    · exact List.forall_mem_cons.mpr ⟨hv, hanswers⟩

/-! ### The state after a response is taken (R107) -/

/-- Settles O16: the one answer is the one taken, and the step left the rest of the state as it was. -/
theorem stateAfterResponseIsStateBefore : Obligations.StateAfterResponseIsStateBefore := by
  intro s r hpending hanswers hwf hadm
  have hp : (s.submit r).pending = [r] := by simp [hpending]
  obtain ⟨v, -, hstep⟩ := step_of_admitted hp hwf hadm
  have ha : (answered (s.submit r) r [] v).answers = [⟨r, v⟩] := by simp [answered, hanswers]
  have hbefore : { answered (s.submit r) r [] v with answers := [] } = s := by
    simp [answered, ← hpending, ← hanswers]
  refine ⟨answered (s.submit r) r [] v, v, hstep, ?_⟩
  rw [take_of_answers_cons ha, hbefore]

/-! ### Only admission refuses (R113) -/

section Refusals

variable {s : State} {r : Request} {rest : List Request} {why : Refusal}

theorem answerWith_ne_refused (f : Request → Except Fault Response) : answerWith s f ≠ .refused why := by
  unfold answerWith
  split
  · nofun
  · split <;> nofun

theorem routeOf_ne_refused (c : OpClass) : routeOf c s ≠ .refused why := by
  obtain ⟨f, hf⟩ := routeOf_eq_answerWith c
  rw [hf]
  exact answerWith_ne_refused f

theorem processAdmitted_ne_refused : processAdmitted s ≠ .refused why := by
  unfold processAdmitted
  split
  · nofun
  · split
    · nofun
    · exact answerWith_ne_refused _
    · exact routeOf_ne_refused _

/-- Whatever its buffer, the step does not refuse an admitted request: past admission no part of a command refuses. -/
theorem step_ne_refused_of_admitted (hp : s.pending = r :: rest) (hadm : Admitted s.params r) :
    step s ≠ .refused why := by
  obtain ⟨hreserved, hdatagram, hpayload⟩ := hadm
  rcases decodeCommand_cases r.cmd with ⟨hc, hrow⟩ | ⟨hc, hrow⟩ | ⟨hc, hrow⟩ | ⟨hc, hrow⟩ <;>
    rw [step_cons hp, hrow]
  · rw [exec, execProcess, checkCapacity_within hp (hdatagram (.inl hc))]
    exact processAdmitted_ne_refused
  · rw [exec, execClassify, checkCapacity_within hp (hdatagram (.inr hc))]
    exact answerWith_ne_refused _
  · rw [exec, execDecodeArtdmx, checkCapacity_within hp (hpayload hc)]
    exact answerWith_ne_refused _
  · exact absurd hc hreserved

end Refusals

/-- Settles O21: the idle step does not refuse, and no step on an admitted request does. -/
theorem onlyListedRequestsAreRefused : Obligations.OnlyListedRequestsAreRefused := by
  intro s why hstep
  cases hp : s.pending with
  | nil =>
    rw [step_nil hp] at hstep
    cases hstep
  | cons r rest => exact ⟨r, rest, rfl, fun hadm => step_ne_refused_of_admitted hp hadm hstep⟩

/-! ### Each listed request is refused by its name (R113) -/

theorem not_within_of_lt {cap : Option Nat} {n len : Nat} (hcap : cap = some n) (hlen : n < len) :
    ¬ within cap len := by
  simp [hcap, hlen]

/-- Settles O20, by the outcome of each command on a request beyond its capacity. -/
theorem oversizedRequestIsRefused : Obligations.OversizedRequestIsRefused := by
  intro s r rest hp
  refine ⟨fun hcmd => ?_, fun n hcap hlen hcmd => ?_, fun n hcap hlen hcmd => ?_⟩ <;>
    apply refusedForGood_of_step <;> rw [step_cons hp]
  · rw [hcmd]
    rfl
  · have hw := not_within_of_lt hcap hlen
    rcases hcmd with hcmd | hcmd <;> rw [hcmd]
    · exact execProcess_of_not_within hp hw
    · exact execClassify_of_not_within hp hw
  · rw [hcmd]
    exact execDecodeArtdmx_of_not_within hp (not_within_of_lt hcap hlen)

end Sys2Proof.Proofs.ExceptionFamily
